-- ==== Sys2Proof/Word.lean ====
section
/-! DEFINITION. The word types of the block (00_scope.md R7, R10; 30_encoding.md R37). -/

namespace Sys2Proof

/-- `u8`. -/
abbrev Byte := BitVec 8

/-- `u16`. -/
abbrev Half := BitVec 16

/-- `u32`. -/
abbrev Quad := BitVec 32

/-- An input event word `ev`, 24 bits (30_encoding.md R37). -/
abbrev EventWord := BitVec 24

end Sys2Proof
end

