-- ==== Sys2Proof/Syntax.lean ====
section
/-! DEFINITION. The block's instruction set: its input events, one constructor per row of
spec/opcode_table.json (30_encoding.md R37 to R40). -/

namespace Sys2Proof

/-- One input event, as decoded (30_encoding.md R37, R38). -/
inductive Instr where
  /-- BYTE: the byte source delivered `b`. -/
  | byte (b : Byte)
  /-- NODATA: a read of the byte source returned no data within its timeout. -/
  | noData
  /-- EOF: the byte source reported end of file or closed. -/
  | eof
  /-- CANCEL: the external cancellation signal. -/
  | cancel
  /-- GEN_INIT: load the standalone generator with `seed`. -/
  | genInit (seed : Half)
  /-- GEN_BYTE: feed `b` to the standalone generator. -/
  | genByte (b : Byte)
  /-- ILLEGAL: any word that is none of the above; the whole word is reported (R40). -/
  | illegal (word : EventWord)
deriving DecidableEq, Repr

end Sys2Proof
end

