-- ==== Sys2Proof/WellFormed.lean ====
section
/-! DEFINITION. Which words are legal (30_encoding.md R39), written from the rule's own fields `op` and
`arg`, and which `Instr` terms stand for a word at all: an ILLEGAL instruction must carry a word that
is not legal. -/

namespace Sys2Proof

/-- 30_encoding.md R39, clause by clause: `op = ev[23:16]`, `arg = ev[15:0]`. -/
def legalWord (ev : EventWord) : Bool :=
  let op := ev.extractLsb' 16 8
  let arg := ev.extractLsb' 0 16
  let argHigh := ev.extractLsb' 8 8
  (op == 0x00#8 && argHigh == 0x00#8)
    || ((op == 0x01#8 || op == 0x02#8 || op == 0x03#8) && arg == 0x0000#16)
    || op == 0x10#8
    || (op == 0x11#8 && argHigh == 0x00#8)

/-- A term of `Instr` is well formed when some event word decodes to it. Every operand of the six legal
events has exactly the width of its field, so only ILLEGAL carries a check: its word is not legal
(R39, R40; the row's lowest priority in opcode_table.json). -/
def WellFormed : Instr → Bool
  | .byte _ => true
  | .noData => true
  | .eof => true
  | .cancel => true
  | .genInit _ => true
  | .genByte _ => true
  | .illegal w => !legalWord w

end Sys2Proof
end

