-- ==== Sys2Proof/Decode.lean ====
section
/-! DEFINITION. The decoder, from the mask and match columns of spec/opcode_table.json, and after it the
encoder, from 30_encoding.md R41. WellFormed's `legalWord` is written from R39's fields instead, so
that the agreement of the two is a theorem and not one text twice. -/

namespace Sys2Proof

/-- A row of the opcode table fits a word: the masked bits equal the match. -/
def fits (mask pattern ev : EventWord) : Bool := (ev &&& mask) == pattern

/-- The data byte of BYTE and GEN_BYTE, `ev[7:0]` (30_encoding.md R38). -/
def dataByte (ev : EventWord) : Byte := ev.extractLsb' 0 8

/-- The seed of GEN_INIT, `ev[15:0]` (30_encoding.md R38). -/
def seedField (ev : EventWord) : Half := ev.extractLsb' 0 16

/-- The decoder, total on every word: the rows of opcode_table.json in its order, ILLEGAL last, which
rejects by name every word no other row fits (30_encoding.md R37, R39, R40). -/
def decode (ev : EventWord) : Instr :=
  if fits 0xFFFF00#24 0x000000#24 ev then .byte (dataByte ev)
  else if fits 0xFFFFFF#24 0x010000#24 ev then .noData
  else if fits 0xFFFFFF#24 0x020000#24 ev then .eof
  else if fits 0xFFFFFF#24 0x030000#24 ev then .cancel
  else if fits 0xFF0000#24 0x100000#24 ev then .genInit (seedField ev)
  else if fits 0xFFFF00#24 0x110000#24 ev then .genByte (dataByte ev)
  else .illegal ev

/-- The word of a well-formed instruction (30_encoding.md R37, R41). -/
def encode : Instr → EventWord
  | .byte b => 0x0000#16 ++ b
  | .noData => 0x010000#24
  | .eof => 0x020000#24
  | .cancel => 0x030000#24
  | .genInit seed => 0x10#8 ++ seed
  | .genByte b => 0x1100#16 ++ b
  | .illegal w => w

/-- The event word that `nbits` bits of value `w` stand for, the bits above `nbits` zero; an input event
is one word of 24 bits and nothing longer (30_encoding.md R37; log entry 11). -/
def wordOfBits (nbits w : Nat) : EventWord := BitVec.ofNat 24 (w % 2 ^ nbits)

/-- What the decoder reads from an instruction whose bits are `w`, numbered as opcode_table.json numbers
them; a width no event word has is refused (30_encoding.md R37: every event is one 24-bit word). -/
def decodeTableWord (nbits w : Nat) : Option Instr :=
  if nbits ≤ 24 then some (decode (wordOfBits nbits w)) else none

end Sys2Proof
end

