-- ==== Sys2Proof/Machine/Literals.lean ====
section
/-! DEFINITION. The values the source fixes (00_scope.md R6; 93_implementation_defined.md I1). -/

namespace Sys2Proof.Machine

/-- The first marker byte. -/
abbrev markerFirst : Byte := 0xAA

/-- The second marker byte. -/
abbrev markerSecond : Byte := 0x55

/-- The CRC polynomial. -/
abbrev crcPolynomial : Half := 0x1021

/-- The frame CRC seed, also the source's default seed. -/
abbrev frameSeed : Half := 0xFFFF

/-- The ELEMENTAL_BUS type tag. -/
abbrev elementalTag : Byte := 0x20

/-- The ELEMENTAL payload length. -/
abbrev elementalLength : Half := 4

/-- The index of the last header byte: the header is 9 bytes. -/
abbrev lastHeaderIndex : Nat := 8

/-- The normalization divisor. -/
abbrev normDivisor : Nat := 127

end Sys2Proof.Machine
end

