-- ==== Sys2Proof/Machine/Crc.lean ====
section
/-! DEFINITION. The CRC unit: the byte step and its fold (40_crc.md R49, R51). -/

namespace Sys2Proof.Machine

/-- One of the eight shifts of R49: if the top bit is set, shift left and XOR with the polynomial, else
shift left; the 16-bit word discards the bit shifted out. -/
def crcShift (x : Half) : Half :=
  if x.getLsbD 15 then (x <<< 1) ^^^ crcPolynomial else x <<< 1

/-- `n` shifts one after another. -/
def crcShifts : Nat → Half → Half
  | 0, x => x
  | n + 1, x => crcShifts n (crcShift x)

/-- `crc_step(c, b)`: the byte enters at bits 15:8, then eight shifts (40_crc.md R49, R50). -/
def crcStep (c : Half) (b : Byte) : Half :=
  crcShifts 8 (c ^^^ (b.zeroExtend 16 <<< 8))

/-- `crc16(data, seed)`: the fold of the byte step; the default seed is 0xFFFF (40_crc.md R51). -/
def crc16 (data : List Byte) (seed : Half := frameSeed) : Half :=
  data.foldl crcStep seed

end Sys2Proof.Machine
end

