-- ==== Sys2Proof/Config.lean ====
section
/-! DEFINITION. What an implementation fixes (the static parameter MAX_LEN) and the one free value
(what PBUF holds at power-up). -/

namespace Sys2Proof

/-- The block's static configuration: one value, `MAX_LEN` (00_scope.md R4, 10_state.md R25).
`none` is the spec's NONE (no ceiling), `some n` a ceiling of `n`. It is carried in State because
the machine's step takes a state only; no step writes it (70_reset_and_hazards.md R111, log entry 3). -/
structure Config where
  maxLen : Option Half
deriving DecidableEq, Repr

/-- FREE VALUE: what entry `i` of PBUF held at power-up. The spec leaves it unspecified
(10_state.md R24, 93_implementation_defined.md U1: any value). No body: nothing can be proved of it
(log entry 4). -/
opaque Config.powerUpByte : Nat → Byte

end Sys2Proof
end

