-- ==== Sys2Proof/Machine/State.lean ====
section
/-! DEFINITION. The state of the block as plain data: every register of 10_state.md R13, the payload
buffer, the static configuration, the inputs presented to it and the records it has emitted. -/

namespace Sys2Proof.Machine

/-- The control state `st` (10_state.md R13, R14). The unused encodings 5 to 7 have no constructor
(log entry 9). -/
inductive Ctl where
  | seekingSync
  | readingHeader
  | readingPayload
  | readingCrc
  | closed
deriving DecidableEq, Repr

/-- `close_cause` (10_state.md R13, R21). The unused encoding 3 has no constructor (log entry 9). -/
inductive CloseCause where
  | none
  | eof
  | cancel
deriving DecidableEq, Repr

/-- `phase` of INCOMPLETE_FRAME (30_encoding.md R42). -/
inductive Phase where
  | header
  | payload
  | crc
deriving DecidableEq, Repr

/-- One lane of an ElementalReading: the raw signed byte and the exact rational `raw / 127`
(43_codec.md R84, R85). -/
structure Lane where
  raw : Int
  norm : Rat
deriving DecidableEq, Repr

/-- The four lanes, payload byte 0 first (43_codec.md R84). -/
structure ElementalReading where
  earth : Lane
  air : Lane
  water : Lane
  fire : Lane
deriving DecidableEq, Repr

/-- The fields of a FRAME_VALID record (30_encoding.md R42). -/
structure Frame where
  type : Byte
  sequence : Half
  length : Half
  timestamp : Quad
  payload : List Byte
  checksum : Half
  elemental : Option ElementalReading
deriving DecidableEq, Repr

/-- An output record (30_encoding.md R42). The kind NONE is "no record" and has no constructor; the
reserved kinds 9 to 15 are never emitted and have none either. -/
inductive Record where
  | frameValid (frame : Frame)
  | incompleteFrame (phase : Phase) (got : Half)
  | checksumMismatch (crcComputed crcReceived : Half)
  | oversizedFrame
  | noFrameAvailable
  | sourceClosed (inFrame : Bool)
  | cancelled (inFrame : Bool)
  | illegalEvent (word : EventWord)
deriving DecidableEq, Repr

/-- What the environment presents for one step: an event word, the reset input, or both at once
(70_reset_and_hazards.md R107, R108). -/
inductive Input where
  | event (word : EventWord)
  | reset
  | resetWithEvent (word : EventWord)
deriving DecidableEq, Repr

/-- PBUF as a list of (index, byte) pairs, indexes strictly rising; an index that is not listed holds no
byte anyone has written (log entry 4). -/
abbrev Memory := List Host.Cell

/-- The state of the block. -/
structure State where
  /-- the static parameter MAX_LEN (00_scope.md R4) -/
  cfg : Config
  /-- `st` -/
  st : Ctl
  /-- `seen_aa` -/
  seenAa : Bool
  /-- `cnt` -/
  cnt : Half
  /-- `f_type` -/
  fType : Byte
  /-- `f_seq` -/
  fSeq : Half
  /-- `f_len` -/
  fLen : Half
  /-- `f_ts` -/
  fTs : Quad
  /-- `fcrc` -/
  fcrc : Half
  /-- `crc_lo` -/
  crcLo : Byte
  /-- `close_cause` -/
  closeCause : CloseCause
  /-- `gcrc` -/
  gcrc : Half
  /-- `PBUF` -/
  pbuf : Memory
  /-- what the environment presents, next first (log entry 1) -/
  input : List Input
  /-- the output trace, oldest first (70_reset_and_hazards.md R115, log entry 7) -/
  output : List Record
deriving DecidableEq, Repr

/-- Why a step faults. -/
inductive Fault where
  /-- Raised by BYTE in READING_PAYLOAD (R71) and by the FRAME_VALID outcome (R75) when PBUF would be
  accessed at an index that does not exist, PBUF_SIZE or more (10_state.md R24). No state that meets
  the invariant R27(d), (e) raises it. Safe: the model stops (log entry 6). -/
  | pbufOutOfRange (index : Nat)
deriving DecidableEq, Repr

/-- Why a step is refused. -/
inductive Refusal where
  /-- Raised by `exec` for an instruction that has no meaning yet. Safe. No arm raises it now. -/
  | notModelled (mnemonic : String)
  /-- Raised by BYTE in a reading state whose `cnt` is outside the range its rule requires (R64: at most
  8; R71: below `f_len`; R73, R74: 0 or 1), so that no rule applies. No state that meets the invariant
  R27(c) to (e) raises it. Safe: the model stops (log entry 5). -/
  | noRuleForCount (cnt : Half)
deriving DecidableEq, Repr

/-- The state right after reset under the static configuration `cfg`: every register at the value of
10_state.md R13 and 70_reset_and_hazards.md R107, PBUF never written, nothing presented and nothing
emitted. -/
def State.resetWith (cfg : Config) : State where
  cfg := cfg
  st := .seekingSync
  seenAa := false
  cnt := 0
  fType := 0
  fSeq := 0
  fLen := 0
  fTs := 0
  fcrc := 0xFFFF
  crcLo := 0
  closeCause := .none
  gcrc := 0xFFFF
  pbuf := []
  input := []
  output := []

/-- The state right after reset with `MAX_LEN = NONE`, the source program's configuration. DESIGN CHOICE:
MAX_LEN is an OPEN parameter of the spec (log entry 3); `State.resetWith` gives every other value. -/
def State.reset : State := State.resetWith ⟨none⟩

end Sys2Proof.Machine
end

