-- ==== Sys2Proof/Machine/Ops.lean ====
section
/-! DEFINITION. The named operations over PBUF and the registers: reading and writing PBUF, emitting a
record, raising a status (the block's counterpart of taking an exception), entering a reading state,
and the reset step. -/

namespace Sys2Proof.Machine

/-! ## PBUF -/

/-- `PBUF_SIZE`: MAX_LEN when it is a number, else 65535 (00_scope.md R5). -/
def pbufSize (cfg : Config) : Nat :=
  match cfg.maxLen with
  | none => 65535
  | some n => n.toNat

/-- The byte written last at index `i`, if any was. -/
def Memory.read? : Memory → Nat → Option Byte
  | [], _ => none
  | (j, v) :: rest, i => if j = i then some v else Memory.read? rest i

/-- Write byte `b` at index `i`, keeping the indexes strictly rising. -/
def Memory.write : Memory → Nat → Byte → Memory
  | [], i, b => [(i, b)]
  | (j, v) :: rest, i, b =>
    if i < j then (i, b) :: (j, v) :: rest
    else if i = j then (i, b) :: rest
    else (j, v) :: Memory.write rest i b

/-- The canonical form: indexes strictly rising. An index that is not listed has no written byte, so no
entry can repeat what an unlisted index reads as. -/
def Memory.wf : Memory → Bool
  | [] => true
  | [_] => true
  | (i, _) :: (j, w) :: rest => decide (i < j) && Memory.wf ((j, w) :: rest)

/-- `PBUF[i]` as the block reads it: the byte written last or, where nothing has been written, the
unspecified power-up contents (10_state.md R24; log entry 4). -/
def pbufByte (s : State) (i : Nat) : Byte :=
  (Memory.read? s.pbuf i).getD (Config.powerUpByte i)

/-- `MemRead(PBUF, 0, n)`: `n` bytes from index 0, lowest index first (00_scope.md R10). -/
def readPayload (s : State) (n : Nat) : List Byte :=
  (List.range n).map (pbufByte s)

/-- `PBUF[i] <- b` (00_scope.md R10). -/
def writePbuf (i : Nat) (b : Byte) (s : State) : State :=
  { s with pbuf := Memory.write s.pbuf i b }

/-! ## Records and control -/

/-- `emit r`: append the record to the output trace (00_scope.md R10, 70_reset_and_hazards.md R115). -/
def emit (r : Record) (s : State) : State :=
  { s with output := s.output ++ [r] }

/-- A status that ends what the block is doing, the counterpart of taking an exception: emit the record
and write the control state, and with it `seen_aa <- 0` and `cnt <- 0`; nothing else is saved
(60_exceptions.md R93). There is no return from it (R101). -/
def raiseStatus (r : Record) (dest : Ctl) (s : State) : State :=
  { s with st := dest, seenAa := false, cnt := 0, output := s.output ++ [r] }

/-- The marker is found: a decode attempt begins (41_sync.md R58). -/
def startAttempt (s : State) : State :=
  { s with st := .readingHeader, cnt := 0, fcrc := frameSeed, seenAa := false }

/-- Enter READING_PAYLOAD or READING_CRC with `cnt <- 0` (10_state.md R16). -/
def enterReading (dest : Ctl) (s : State) : State :=
  { s with st := dest, cnt := 0 }

/-- One more byte consumed in the current reading state (10_state.md R16). -/
def countByte (s : State) : State :=
  { s with cnt := s.cnt + 1 }

/-- A body byte enters the running frame CRC (10_state.md R19). -/
def feedFrameCrc (b : Byte) (s : State) : State :=
  { s with fcrc := crcStep s.fcrc b }

/-! ## Reset -/

/-- A reset step: every register to its reset value; PBUF and the static configuration are unchanged and
nothing is emitted (70_reset_and_hazards.md R107, R111). -/
def resetRegisters (s : State) : State :=
  { s with
    st := .seekingSync, seenAa := false, cnt := 0,
    fType := 0, fSeq := 0, fLen := 0, fTs := 0,
    fcrc := 0xFFFF, crcLo := 0, closeCause := .none, gcrc := 0xFFFF }

end Sys2Proof.Machine
end

