-- ==== Sys2Proof/Machine/Codec.lean ====
section
/-! DEFINITION. The codec unit: the four-lane signed-byte decode and its normalization (43_codec.md). -/

namespace Sys2Proof.Machine

/-- One lane: `raw = sext_8(p)` and `norm = raw / 127`, exact (43_codec.md R84, R85). -/
def lane (p : Byte) : Lane := ⟨p.toInt, mkRat p.toInt normDivisor⟩

/-- `elemental_decode(p0, p1, p2, p3)` (43_codec.md R84). -/
def elementalDecode (p0 p1 p2 p3 : Byte) : ElementalReading :=
  ⟨lane p0, lane p1, lane p2, lane p3⟩

/-- The `elemental` field of a FRAME_VALID record: present exactly for an ELEMENTAL_BUS frame of length
4 (42_decoder.md R75, 43_codec.md R83). -/
def elementalField (s : State) : Option ElementalReading :=
  if s.fType = elementalTag ∧ s.fLen = elementalLength then
    some (elementalDecode (pbufByte s 0) (pbufByte s 1) (pbufByte s 2) (pbufByte s 3))
  else none

/-- `n / d` rounded to the nearest natural number, ties to even. -/
def divNearestEven (n d : Nat) : Nat :=
  let q := n / d
  let r := n % d
  if 2 * r < d then q else if d < 2 * r then q + 1 else q + q % 2

/-- The exponent of the leading bit of `m / 127`, raised by 7 to stay a natural number, for
`1 ≤ m ≤ 128`. -/
def normExponent (m : Nat) : Nat := if 127 ≤ m then 7 else Nat.log2 m

/-- The IEEE 754 binary64 word nearest to `raw / 127`, ties to even, for a raw lane value
(43_codec.md R86): the form an implementation delivers where it must deliver a float. No record carries
it (log entry 10). -/
def norm64 (raw : Int) : BitVec 64 :=
  if raw = 0 then 0
  else
    let m := raw.natAbs
    let e := normExponent m
    let sign := if raw < 0 then 2 ^ 63 else 0
    BitVec.ofNat 64
      (sign + (1016 + e) * 2 ^ 52 + (divNearestEven (m * 2 ^ (59 - e)) normDivisor - 2 ^ 52))

end Sys2Proof.Machine
end

