-- ==== Sys2Proof/Machine/Operands.lean ====
section
/-! DEFINITION. How bytes make up the wire fields and where each header byte goes (30_encoding.md R46,
42_decoder.md R65). -/

namespace Sys2Proof.Machine

/-- Byte `j` of a value, byte 0 the least significant. -/
def byteOf {w : Nat} (v : BitVec w) (j : Nat) : Byte := v.extractLsb' (8 * j) 8

/-- Write byte `j` of a value, leaving its other bits. -/
def setByte {w : Nat} (v : BitVec w) (j : Nat) (b : Byte) : BitVec w :=
  (v &&& ~~~((0xFF#8).zeroExtend w <<< (8 * j))) ||| (b.zeroExtend w <<< (8 * j))

/-- Header byte `k` goes to its field bits (42_decoder.md R65). There is no header byte above 8. -/
def placeHeader (k : Nat) (b : Byte) (s : State) : State :=
  match k with
  | 0 => { s with fType := b }
  | 1 => { s with fSeq := setByte s.fSeq 0 b }
  | 2 => { s with fSeq := setByte s.fSeq 1 b }
  | 3 => { s with fLen := setByte s.fLen 0 b }
  | 4 => { s with fLen := setByte s.fLen 1 b }
  | 5 => { s with fTs := setByte s.fTs 0 b }
  | 6 => { s with fTs := setByte s.fTs 1 b }
  | 7 => { s with fTs := setByte s.fTs 2 b }
  | 8 => { s with fTs := setByte s.fTs 3 b }
  | _ => s

/-- The bytes of a 16-bit field in wire order, low byte first (20_memory.md R29). -/
def leBytes16 (v : Half) : List Byte := [byteOf v 0, byteOf v 1]

/-- The bytes of a 32-bit field in wire order, low byte first (20_memory.md R29). -/
def leBytes32 (v : Quad) : List Byte := [byteOf v 0, byteOf v 1, byteOf v 2, byteOf v 3]

/-- The 9 header bytes `h0 … h8` of a frame (30_encoding.md R44, R46). -/
def headerBytes (type : Byte) (sequence length : Half) (timestamp : Quad) : List Byte :=
  type :: (leBytes16 sequence ++ leBytes16 length ++ leBytes32 timestamp)

/-- The header bytes that the frame registers now hold. -/
def storedHeader (s : State) : List Byte := headerBytes s.fType s.fSeq s.fLen s.fTs

/-- `rx = {b, crc_lo}`: the received checksum, low byte first on the wire (42_decoder.md R74). -/
def receivedChecksum (b : Byte) (s : State) : Half := b ++ s.crcLo

end Sys2Proof.Machine
end

