-- ==== Sys2Proof/Machine/Decoder.lean ====
section
/-! DEFINITION. The decoder unit: BYTE and NODATA in the three reading states (42_decoder.md R64 to R78). -/

namespace Sys2Proof.Machine

/-- `MAX_LEN ≠ NONE and L > MAX_LEN`, unsigned (42_decoder.md R64). -/
def exceedsCeiling (cfg : Config) (len : Half) : Bool :=
  match cfg.maxLen with
  | none => false
  | some n => decide (n.toNat < len.toNat)

/-- The header is complete: first the ceiling, then the zero length (42_decoder.md R64, R66, R67, R69). -/
def headerComplete (s : State) : State :=
  if exceedsCeiling s.cfg s.fLen then raiseStatus .oversizedFrame .seekingSync s
  else if s.fLen = 0 then enterReading .readingCrc s
  else enterReading .readingPayload s

/-- BYTE `b` in READING_HEADER (42_decoder.md R64, R65), for `cnt` at most 8. -/
def takeHeaderByte (b : Byte) (s : State) : Host.Outcome State Fault Refusal :=
  let k := s.cnt.toNat
  let placed := placeHeader k b (feedFrameCrc b s)
  if k < lastHeaderIndex then .next (countByte placed)
  else if k = lastHeaderIndex then .next (headerComplete placed)
  else .refused (.noRuleForCount s.cnt)

/-- BYTE `b` in READING_PAYLOAD (42_decoder.md R71), for `cnt` below `f_len`. -/
def takePayloadByte (b : Byte) (s : State) : Host.Outcome State Fault Refusal :=
  let i := s.cnt.toNat
  let stored := feedFrameCrc b (writePbuf i b s)
  if s.fLen.toNat ≤ i then .refused (.noRuleForCount s.cnt)
  else if pbufSize s.cfg ≤ i then .fault (.pbufOutOfRange i)
  else if i + 1 = s.fLen.toNat then .next (enterReading .readingCrc stored)
  else .next (countByte stored)

/-- The fields of the FRAME_VALID record (42_decoder.md R75). -/
def validFrame (rx : Half) (s : State) : Frame where
  type := s.fType
  sequence := s.fSeq
  length := s.fLen
  timestamp := s.fTs
  payload := readPayload s s.fLen.toNat
  checksum := rx
  elemental := elementalField s

/-- Validation: FRAME_VALID when the received checksum equals the running CRC, else CHECKSUM_MISMATCH
(42_decoder.md R74, R75, R76). -/
def validate (rx : Half) (s : State) : Host.Outcome State Fault Refusal :=
  if rx = s.fcrc then
    if s.fLen.toNat ≤ pbufSize s.cfg then
      .next (raiseStatus (.frameValid (validFrame rx s)) .seekingSync s)
    else .fault (.pbufOutOfRange (s.fLen.toNat - 1))
  else .next (raiseStatus (.checksumMismatch s.fcrc rx) .seekingSync s)

/-- BYTE `b` in READING_CRC (42_decoder.md R73, R74), for `cnt` 0 or 1. -/
def takeChecksumByte (b : Byte) (s : State) : Host.Outcome State Fault Refusal :=
  if s.cnt = 0 then .next { s with crcLo := b, cnt := 1 }
  else if s.cnt = 1 then validate (receivedChecksum b s) s
  else .refused (.noRuleForCount s.cnt)

/-- NODATA in a reading state: a short read of that phase (42_decoder.md R70, R72, R78). -/
def shortRead (phase : Phase) (s : State) : State :=
  raiseStatus (.incompleteFrame phase s.cnt) .seekingSync s

end Sys2Proof.Machine
end

