-- ==== Sys2Proof/Machine/Flags.lean ====
section
/-! DEFINITION. The block's indicators and codes: it has no condition codes (10_state.md R23), only
`seen_aa`, `close_cause`, the `in_frame` bit of two records, and the numeric codes of its states and
records. -/

namespace Sys2Proof.Machine

/-- `in_frame`: the block is in one of the three reading states (00_scope.md §7, 60_exceptions.md R97). -/
def inFrame (s : State) : Bool :=
  match s.st with
  | .seekingSync => false
  | .readingHeader => true
  | .readingPayload => true
  | .readingCrc => true
  | .closed => false

/-- The 3-bit encoding of `st` (10_state.md R13). -/
def ctlCode : Ctl → BitVec 3
  | .seekingSync => 0
  | .readingHeader => 1
  | .readingPayload => 2
  | .readingCrc => 3
  | .closed => 4

/-- The 2-bit encoding of `close_cause` (10_state.md R13). -/
def causeCode : CloseCause → BitVec 2
  | .none => 0
  | .eof => 1
  | .cancel => 2

/-- The 2-bit encoding of `phase` (30_encoding.md R42). -/
def phaseCode : Phase → BitVec 2
  | .header => 1
  | .payload => 2
  | .crc => 3

/-- The 4-bit `kind` of a step's output; NONE (no record) is 0 (30_encoding.md R42). -/
def kindCode : Option Record → BitVec 4
  | none => 0
  | some (.frameValid _) => 1
  | some (.incompleteFrame _ _) => 2
  | some (.checksumMismatch _ _) => 3
  | some .oversizedFrame => 4
  | some .noFrameAvailable => 5
  | some (.sourceClosed _) => 6
  | some (.cancelled _) => 7
  | some (.illegalEvent _) => 8

end Sys2Proof.Machine
end

