-- ==== Sys2Proof/Machine/Sync.lean ====
section
/-! DEFINITION. The sync unit: BYTE and NODATA in SEEKING_SYNC (41_sync.md R58, R59). -/

namespace Sys2Proof.Machine

/-- BYTE `b` in SEEKING_SYNC: scan one byte (41_sync.md R58). -/
def scanByte (b : Byte) (s : State) : State :=
  if s.seenAa = true ∧ b = markerSecond then startAttempt s
  else { s with seenAa := b == markerFirst }

/-- NODATA in SEEKING_SYNC: no frame available; a partial marker does not survive (41_sync.md R59). -/
def scanNoData (s : State) : State :=
  emit .noFrameAvailable { s with seenAa := false }

end Sys2Proof.Machine
end

