-- ==== Sys2Proof/Machine/FramePath.lean ====
section
/-! DEFINITION. The meanings of the frame-path events BYTE, NODATA, EOF and CANCEL, by control state in the
order of 41_sync.md R56. CLOSED absorbs them (60_exceptions.md R99). -/

namespace Sys2Proof.Machine

/-- BYTE `b` (41_sync.md R58; 42_decoder.md R64, R71, R73, R74; 60_exceptions.md R99). -/
def execByte (b : Byte) (s : State) : Host.Outcome State Fault Refusal :=
  match s.st with
  | .seekingSync => .next (scanByte b s)
  | .readingHeader => takeHeaderByte b s
  | .readingPayload => takePayloadByte b s
  | .readingCrc => takeChecksumByte b s
  | .closed => .next s

/-- NODATA (41_sync.md R59; 42_decoder.md R70, R72, R78; 60_exceptions.md R99). -/
def execNoData (s : State) : Host.Outcome State Fault Refusal :=
  match s.st with
  | .seekingSync => .next (scanNoData s)
  | .readingHeader => .next (shortRead .header s)
  | .readingPayload => .next (shortRead .payload s)
  | .readingCrc => .next (shortRead .crc s)
  | .closed => .next s

/-- End of the run: the frame path closes for `cause` and reports `r` (60_exceptions.md R97, R98). -/
def closePath (cause : CloseCause) (r : Record) (s : State) : State :=
  raiseStatus r .closed { s with closeCause := cause }

/-- EOF (60_exceptions.md R97, R99). -/
def execEof (s : State) : Host.Outcome State Fault Refusal :=
  match s.st with
  | .closed => .next s
  | _ => .next (closePath .eof (.sourceClosed (inFrame s)) s)

/-- CANCEL (60_exceptions.md R98, R99). -/
def execCancel (s : State) : Host.Outcome State Fault Refusal :=
  match s.st with
  | .closed => .next s
  | _ => .next (closePath .cancel (.cancelled (inFrame s)) s)

end Sys2Proof.Machine
end

