-- ==== Sys2Proof/Machine/Generator.lean ====
section
/-! DEFINITION. The meanings of the standalone generator's events GEN_INIT and GEN_BYTE, the same in every
control state (40_crc.md R52, R53). -/

namespace Sys2Proof.Machine

/-- GEN_INIT `seed` (40_crc.md R52). -/
def execGenInit (seed : Half) (s : State) : Host.Outcome State Fault Refusal :=
  .next { s with gcrc := seed }

/-- GEN_BYTE `b` (40_crc.md R53). -/
def execGenByte (b : Byte) (s : State) : Host.Outcome State Fault Refusal :=
  .next { s with gcrc := crcStep s.gcrc b }

end Sys2Proof.Machine
end

