-- ==== Sys2Proof/Machine/Illegal.lean ====
section
/-! DEFINITION. The meaning of an illegal event word (30_encoding.md R40, 60_exceptions.md R96). -/

namespace Sys2Proof.Machine

/-- An illegal word: report it and change nothing, in every control state (30_encoding.md R40). -/
def execIllegal (word : EventWord) (s : State) : Host.Outcome State Fault Refusal :=
  .next (emit (.illegalEvent word) s)

end Sys2Proof.Machine
end

