-- ==== Sys2Proof/Machine/Dispatch.lean ====
section
/-! DEFINITION. One arm per instruction (41_sync.md R56). -/

namespace Sys2Proof.Machine

def exec (i : Instr) (s : State) : Host.Outcome State Fault Refusal :=
  match i with
  | .byte b => Sys2Proof.Machine.execByte b s
  | .noData => Sys2Proof.Machine.execNoData s
  | .eof => Sys2Proof.Machine.execEof s
  | .cancel => Sys2Proof.Machine.execCancel s
  | .genInit seed => Sys2Proof.Machine.execGenInit seed s
  | .genByte b => Sys2Proof.Machine.execGenByte b s
  | .illegal word => Sys2Proof.Machine.execIllegal word s

end Sys2Proof.Machine
end

