-- ==== Sys2Proof/Machine/Step.lean ====
section
/-! DEFINITION. One step: the next presented input is consumed (00_scope.md R9, 41_sync.md R56,
70_reset_and_hazards.md R107, R108). -/

namespace Sys2Proof.Machine

/-- One step of the block. An event word is decoded and run. Reset has priority: an event presented with
it is not consumed and has no effect (R108; log entry 8). With nothing presented the block waits and
nothing changes (R9, R118; log entry 2). -/
def step (s : State) : Host.Outcome State Fault Refusal :=
  match s.input with
  | [] => .next s
  | .event ev :: rest => exec (decode ev) { s with input := rest }
  | .reset :: rest => .next (resetRegisters { s with input := rest })
  | .resetWithEvent _ :: rest => .next (resetRegisters { s with input := rest })

/-- `s` with the event word `w` presented next, before whatever was already presented (log entry 1). -/
def State.withFetchWord (s : State) (nbits w : Nat) : State :=
  { s with input := .event (wordOfBits nbits w) :: s.input }

end Sys2Proof.Machine
end

