-- ==== Sys2Proof/Machine/Stream.lean ====
section
/-! DEFINITION. The assembler's pseudo-instructions for event streams, each a list of event words
(30_encoding.md R41), and the wire format of a frame they expand to (R44, R47). -/

namespace Sys2Proof.Machine

/-- The bytes the checksum covers: the 9 header bytes, then the payload, in wire order (30_encoding.md
R47). -/
def bodyBytes (type : Byte) (sequence length : Half) (timestamp : Quad) (payload : List Byte) :
    List Byte :=
  headerBytes type sequence length timestamp ++ payload

/-- A frame on the byte stream with `length` and `checksum` as given (30_encoding.md R44; RAWFRAME of
R41). -/
def rawFrameBytes (type : Byte) (sequence length : Half) (timestamp : Quad) (payload : List Byte)
    (checksum : Half) : List Byte :=
  markerFirst :: markerSecond ::
    (bodyBytes type sequence length timestamp payload ++ leBytes16 checksum)

/-- A well-formed frame: its length is the payload's and its checksum the CRC of its body (30_encoding.md
R44, R47; FRAME of R41). -/
def frameBytes (type : Byte) (sequence : Half) (timestamp : Quad) (payload : List Byte) : List Byte :=
  let length := BitVec.ofNat 16 payload.length
  rawFrameBytes type sequence length timestamp payload
    (crc16 (bodyBytes type sequence length timestamp payload))

/-- `BYTES b0 … bk`. -/
def asmBytes (bs : List Byte) : List EventWord := bs.map fun b => encode (.byte b)

/-- `MARKER`. -/
def asmMarker : List EventWord := asmBytes [markerFirst, markerSecond]

/-- `U16 v`. -/
def asmU16 (v : Half) : List EventWord := asmBytes (leBytes16 v)

/-- `U32 v`. -/
def asmU32 (v : Quad) : List EventWord := asmBytes (leBytes32 v)

/-- `FRAME t, q, ts, [p0 … p(n-1)]`. -/
def asmFrame (t : Byte) (q : Half) (ts : Quad) (p : List Byte) : List EventWord :=
  asmBytes (frameBytes t q ts p)

/-- `RAWFRAME t, q, len, ts, [p…], c`. -/
def asmRawFrame (t : Byte) (q len : Half) (ts : Quad) (p : List Byte) (c : Half) : List EventWord :=
  asmBytes (rawFrameBytes t q len ts p c)

/-- `GEN_INIT s`; without operand the source's default seed. -/
def asmGenInit (s : Half := frameSeed) : List EventWord := [encode (.genInit s)]

/-- `GEN_BYTES b0 … bk`. -/
def asmGenBytes (bs : List Byte) : List EventWord := bs.map fun b => encode (.genByte b)

end Sys2Proof.Machine
end

