-- ==== Sys2Proof/Safety.lean ====
section
/-! DEFINITION. What a safe run is, in the terms the statements use: the invariants of 10_state.md R27 and
R19, runs of several steps, and the two paths of the block. -/

namespace Sys2Proof.Machine

/-- The accepted-length bound of a reading state: `f_len` fits PBUF (10_state.md R27(d)). -/
def LengthFits (s : State) : Prop := s.fLen.toNat ≤ pbufSize s.cfg

/-- Entries 0 to `n - 1` of PBUF have been written. -/
def PayloadWritten (s : State) (n : Nat) : Prop :=
  ∀ i, i < n → (Memory.read? s.pbuf i).isSome = true

/-- The invariant of every state a run from reset reaches. R27(a) holds by the types of `st` and
`close_cause`; (b) to (f) are fields here, read on the state alone ("written this attempt" appears as
"written" and, through the running CRC, as "the bytes the CRC was taken over": R19). The last two fields
are the canonical form of PBUF and the range of its indexes (R24). -/
structure BlockInv (s : State) : Prop where
  /-- R27(b) -/
  seenOnlySeeking : s.seenAa = true → s.st = .seekingSync
  /-- R27(c) -/
  headerCount : s.st = .readingHeader → s.cnt.toNat ≤ 8
  /-- R19 while the header is read -/
  headerCrc : s.st = .readingHeader → s.fcrc = crc16 ((storedHeader s).take s.cnt.toNat)
  /-- R27(d) -/
  payloadCount : s.st = .readingPayload → s.cnt.toNat < s.fLen.toNat
  /-- R27(d) -/
  payloadFits : s.st = .readingPayload → LengthFits s
  /-- R27(d) -/
  payloadWritten : s.st = .readingPayload → PayloadWritten s s.cnt.toNat
  /-- R19 while the payload is read -/
  payloadCrc : s.st = .readingPayload →
    s.fcrc = crc16 (storedHeader s ++ readPayload s s.cnt.toNat)
  /-- R27(e) -/
  crcCount : s.st = .readingCrc → s.cnt.toNat ≤ 1
  /-- R27(e) -/
  crcFits : s.st = .readingCrc → LengthFits s
  /-- R27(e) -/
  crcWritten : s.st = .readingCrc → PayloadWritten s s.fLen.toNat
  /-- R19: `fcrc` is the CRC of the body -/
  bodyCrc : s.st = .readingCrc →
    s.fcrc = crc16 (storedHeader s ++ readPayload s s.fLen.toNat)
  /-- R27(f) -/
  closedCause : s.st = .closed ↔ s.closeCause ≠ .none
  /-- PBUF is in canonical form -/
  pbufCanonical : Memory.wf s.pbuf = true
  /-- PBUF has no entry outside its index space (R24) -/
  pbufIndexes : ∀ c ∈ s.pbuf, c.1 < pbufSize s.cfg

/-- `k` steps, stopping at the first fault or refusal. -/
def runSteps : Nat → State → Host.Outcome State Fault Refusal
  | 0, s => .next s
  | k + 1, s =>
    match step s with
    | .next t => runSteps k t
    | .fault r => .fault r
    | .refused r => .refused r

/-- `s` with exactly these event words presented, then `rest`. -/
def presenting (words : List EventWord) (rest : List Input) (s : State) : State :=
  { s with input := words.map Input.event ++ rest }

/-- The word is a frame-path event: BYTE, NODATA, EOF or CANCEL (00_scope.md §7). -/
def isFramePath (w : EventWord) : Bool :=
  match decode w with
  | .byte _ => true
  | .noData => true
  | .eof => true
  | .cancel => true
  | .genInit _ => false
  | .genByte _ => false
  | .illegal _ => false

/-- The word is a generator event: GEN_INIT or GEN_BYTE (00_scope.md §7). -/
def isGenerator (w : EventWord) : Bool :=
  match decode w with
  | .byte _ => false
  | .noData => false
  | .eof => false
  | .cancel => false
  | .genInit _ => true
  | .genByte _ => true
  | .illegal _ => false

/-- The bytes the GEN_BYTE events of a stream feed to the generator. -/
def genBytesOf : List EventWord → List Byte
  | [] => []
  | w :: ws =>
    match decode w with
    | .genByte b => b :: genBytesOf ws
    | _ => genBytesOf ws

/-- The word is a GEN_INIT event. -/
def isGenInit (w : EventWord) : Bool :=
  match decode w with
  | .genInit _ => true
  | _ => false

/-- The record is an ILLEGAL_EVENT. -/
def isIllegalRecord : Record → Bool
  | .illegalEvent _ => true
  | _ => false

/-- The record is an outcome of a decode attempt (42_decoder.md R63). -/
def isOutcome : Record → Bool
  | .frameValid _ => true
  | .incompleteFrame _ _ => true
  | .checksumMismatch _ _ => true
  | .oversizedFrame => true
  | .noFrameAvailable => false
  | .sourceClosed _ => true
  | .cancelled _ => true
  | .illegalEvent _ => false

end Sys2Proof.Machine
end

