-- ==== Sys2Proof/Certificates/Slice0/Obligations.lean ====
section
/-! DEFINITION. The statements for the provers. Every statement about every state holds for every value of
the static parameter MAX_LEN (`s.cfg.maxLen`) and of the free value `Config.powerUpByte`. -/

open Sys2Proof Sys2Proof.Machine

/-! ## Encoding -/

/-- Decode and encode agree in both directions: a well-formed instruction is what its word decodes to, and
every word is the word of the (well-formed) instruction it decodes to (30_encoding.md §1, §2; the rows of
opcode_table.json). -/
def Obligations.DecodeAndEncodeAgree : Prop :=
  (∀ i : Instr, WellFormed i = true → decode (encode i) = i) ∧
  (∀ w : EventWord, WellFormed (decode w) = true ∧ encode (decode w) = w)

/-- R38 and R39, on the word read as a number: `op = ev / 2^16`, `arg = ev mod 2^16`,
`arg[15:8] = arg / 2^8`. -/
def Obligations.EveryWordDecodesByItsOpAndArg : Prop :=
  ∀ w : EventWord,
    let op := w.toNat / 65536
    let arg := w.toNat % 65536
    (op = 0x00 ∧ arg / 256 = 0 → decode w = .byte (BitVec.ofNat 8 arg)) ∧
    (op = 0x01 ∧ arg = 0 → decode w = .noData) ∧
    (op = 0x02 ∧ arg = 0 → decode w = .eof) ∧
    (op = 0x03 ∧ arg = 0 → decode w = .cancel) ∧
    (op = 0x10 → decode w = .genInit (BitVec.ofNat 16 arg)) ∧
    (op = 0x11 ∧ arg / 256 = 0 → decode w = .genByte (BitVec.ofNat 8 arg)) ∧
    (¬ ((op = 0x00 ∧ arg / 256 = 0) ∨ ((op = 0x01 ∨ op = 0x02 ∨ op = 0x03) ∧ arg = 0) ∨ op = 0x10 ∨
        (op = 0x11 ∧ arg / 256 = 0)) → decode w = .illegal w)

/-- A word of each operation written out from 30_encoding.md §2 and 95_test_vectors.md §3.9. -/
def Obligations.WrittenOutWordsDecode : Prop :=
  decode 0b000000000000000010101010#24 = .byte 0xAA ∧
  decode 0b000000010000000000000000#24 = .noData ∧
  decode 0b000000100000000000000000#24 = .eof ∧
  decode 0b000000110000000000000000#24 = .cancel ∧
  decode 0b000100000001110100001111#24 = .genInit 0x1D0F ∧
  decode 0b000100010000000000110001#24 = .genByte 0x31 ∧
  decode 0b000000000000000100000000#24 = .illegal 0x000100 ∧
  decode 0b000100010000000100000000#24 = .illegal 0x110100

/-! ## The step -/

/-- The next presented event word is decoded and run, with the inputs after it left (00_scope.md §5,
41_sync.md §1); for every well-formed instruction this says so of its own word. -/
def Obligations.StepRunsThePresentedEvent : Prop :=
  (∀ (s : State) (w : EventWord) (rest : List Input), s.input = .event w :: rest →
    step s = exec (decode w) { s with input := rest }) ∧
  (∀ (s : State) (i : Instr) (rest : List Input), WellFormed i = true →
    s.input = .event (encode i) :: rest → step s = exec i { s with input := rest })

/-- With nothing presented the block waits and nothing changes (the model's reading of 00_scope.md §5 and
70_reset_and_hazards.md §5, log entry 2). -/
def Obligations.BlockWaitsWhenNothingIsPresented : Prop :=
  ∀ s : State, s.input = [] → step s = .next s

/-- A step emits no record or exactly one, appended to the trace; it never changes an earlier one
(00_scope.md §5, 30_encoding.md §3). -/
def Obligations.StepEmitsAtMostOneRecord : Prop :=
  ∀ s t : State, step s = .next t → t.output = s.output ∨ ∃ r, t.output = s.output ++ [r]

/-- No step changes MAX_LEN (70_reset_and_hazards.md §2). -/
def Obligations.MaxLenIsStatic : Prop :=
  ∀ s t : State, step s = .next t → t.cfg = s.cfg

/-- The stops of `exec`, in states outside the invariant only: the model's choice (log entries 5 and 6).
The count is out of its rule's range, or PBUF has no such index. -/
def Obligations.CountOrIndexOutOfRangeStops : Prop :=
  ∀ (s : State) (b : Byte),
    (s.st = .readingHeader → 8 < s.cnt.toNat →
      exec (.byte b) s = .refused (.noRuleForCount s.cnt)) ∧
    (s.st = .readingPayload → s.fLen.toNat ≤ s.cnt.toNat →
      exec (.byte b) s = .refused (.noRuleForCount s.cnt)) ∧
    (s.st = .readingPayload → s.cnt.toNat < s.fLen.toNat → pbufSize s.cfg ≤ s.cnt.toNat →
      exec (.byte b) s = .fault (.pbufOutOfRange s.cnt.toNat)) ∧
    (s.st = .readingCrc → 1 < s.cnt.toNat →
      exec (.byte b) s = .refused (.noRuleForCount s.cnt)) ∧
    (s.st = .readingCrc → s.cnt = 1 → b ++ s.crcLo = s.fcrc → pbufSize s.cfg < s.fLen.toNat →
      exec (.byte b) s = .fault (.pbufOutOfRange (s.fLen.toNat - 1)))

/-! ## Invariants -/

/-- The invariant holds right after reset, for every MAX_LEN (10_state.md §5, 70_reset_and_hazards.md §1). -/
def Obligations.InvariantHoldsAtReset : Prop :=
  ∀ cfg : Config, BlockInv (State.resetWith cfg)

/-- Every step from a state that meets the invariant leads to one that does (10_state.md §3, §5). -/
def Obligations.InvariantIsKeptByEveryStep : Prop :=
  ∀ s t : State, BlockInv s → step s = .next t → BlockInv t

/-- The step function is total on the states that meet the invariant: no input stops the block
(41_sync.md §1, 60_exceptions.md §2). -/
def Obligations.NoInputStopsTheBlock : Prop :=
  ∀ s : State, BlockInv s → ∃ t, step s = .next t

/-- Whatever is presented after reset, every run of every length completes in a state that meets the
invariant (10_state.md §5, 60_exceptions.md §2). -/
def Obligations.EveryRunFromResetCompletes : Prop :=
  ∀ (cfg : Config) (inputs : List Input) (k : Nat),
    ∃ t, runSteps k { State.resetWith cfg with input := inputs } = .next t ∧ BlockInv t

/-- R17: the transitions between control states that an event can make are exactly those listed. -/
def Obligations.ControlTransfersAreExactlyThese : Prop :=
  ∀ a c : Ctl,
    (∃ s t w rest, BlockInv s ∧ s.input = .event w :: rest ∧ step s = .next t ∧ s.st = a ∧ t.st = c ∧ a ≠ c) ↔
    ((a = .seekingSync ∧ c = .readingHeader) ∨
     (a = .readingHeader ∧ (c = .readingPayload ∨ c = .readingCrc ∨ c = .seekingSync)) ∨
     (a = .readingPayload ∧ (c = .readingCrc ∨ c = .seekingSync)) ∨
     (a = .readingCrc ∧ c = .seekingSync) ∨
     (a ≠ .closed ∧ c = .closed))

/-! ## CRC unit -/

/-- R49 on natural numbers: XOR the byte into bits 15:8, then eight times shift left, with the polynomial
XORed in when the top bit was set, masked to 16 bits; with the rule's corner cases and example. -/
def Obligations.CrcStepIsEightMaskedShifts : Prop :=
  (∀ (c : Half) (b : Byte),
    (crcStep c b).toNat =
      Nat.repeat (fun x => if 32768 ≤ x then ((x * 2) ^^^ 0x1021) % 65536 else (x * 2) % 65536) 8
        (c.toNat ^^^ (b.toNat * 256))) ∧
  (∀ (c : Half) (b : Byte), crcStep c b = crcStep (c ^^^ (b.zeroExtend 16 <<< 8)) 0x00) ∧
  crcStep 0x0000 0x00 = 0x0000 ∧
  crcStep 0xFFFF 0x31 = 0xC782

/-- R51: the fold, its corner cases, its default seed and the source's check value. -/
def Obligations.CrcFoldsTheByteStep : Prop :=
  (∀ seed : Half, crc16 [] seed = seed) ∧
  (∀ (d : Byte) (ds : List Byte) (seed : Half), crc16 (d :: ds) seed = crc16 ds (crcStep seed d)) ∧
  (∀ (a b : List Byte) (seed : Half), crc16 (a ++ b) seed = crc16 b (crc16 a seed)) ∧
  (∀ d : List Byte, crc16 d = crc16 d 0xFFFF) ∧
  crc16 [0x31, 0x32, 0x33, 0x34, 0x35, 0x36, 0x37, 0x38, 0x39] 0xFFFF = 0x29B1

/-- The byte step is linear over GF(2) (40_crc.md §4). -/
def Obligations.CrcStepIsLinear : Prop :=
  (∀ (c₁ c₂ : Half) (b₁ b₂ : Byte),
    crcStep (c₁ ^^^ c₂) (b₁ ^^^ b₂) = crcStep c₁ b₁ ^^^ crcStep c₂ b₂ ^^^ crcStep 0 0) ∧
  crcStep 0 0 = 0

/-- The byte-wise table form gives the same result for every state and byte (40_crc.md §1,
95_test_vectors.md §2.3): `T[i] = crc_step(0, i)`. -/
def Obligations.CrcTableFormAgrees : Prop :=
  ∀ (c : Half) (b : Byte),
    crcStep c b = (c <<< 8) ^^^ crcStep 0 (c.extractLsb' 8 8 ^^^ b)

/-- Flipping one bit of one byte of a span always changes its CRC, whatever the seed
(93_implementation_defined.md I9). -/
def Obligations.CrcDetectsEverySingleBitFlip : Prop :=
  ∀ (before after : List Byte) (b : Byte) (i : Nat) (seed : Half), i < 8 →
    crc16 (before ++ (b ^^^ (1#8 <<< i)) :: after) seed ≠ crc16 (before ++ b :: after) seed

/-! ## Standalone generator -/

/-- R52: GEN_INIT loads the seed and changes nothing else, in every state and for every seed. -/
def Obligations.GenInitLoadsTheSeed : Prop :=
  (∀ seed : Half, decode (0x10#8 ++ seed) = .genInit seed) ∧
  (∀ (s : State) (seed : Half), exec (.genInit seed) s = .next { s with gcrc := seed }) ∧
  (∀ (s : State) (first second : Half) (rest : List Input),
    runSteps 2 (presenting [0x10#8 ++ first, 0x10#8 ++ second] rest s) =
      .next { s with gcrc := second, input := rest }) ∧
  (∀ s : State, exec (decode 0x101D0F) s = .next { s with gcrc := 0x1D0F })

/-- R53: GEN_BYTE feeds its byte to `gcrc` and changes nothing else, in every state; a GEN_BYTE word with
upper argument bits is illegal; with no GEN_INIT since reset the bytes give `crc16(d, 0xFFFF)`. -/
def Obligations.GenByteFeedsTheGenerator : Prop :=
  (∀ b : Byte, decode (0x1100#16 ++ b) = .genByte b) ∧
  (∀ (s : State) (b : Byte), exec (.genByte b) s = .next { s with gcrc := crcStep s.gcrc b }) ∧
  (∀ (s : State) (high b : Byte), high ≠ 0 →
    exec (decode (0x11#8 ++ high ++ b)) s =
      .next { s with output := s.output ++ [.illegalEvent (0x11#8 ++ high ++ b)] }) ∧
  (∀ (cfg : Config) (d : List Byte) (rest : List Input),
    runSteps d.length (presenting (asmGenBytes d) rest (State.resetWith cfg)) =
      .next { State.resetWith cfg with gcrc := crc16 d 0xFFFF, input := rest }) ∧
  (∀ s : State,
    runSteps 2 (presenting [0x10FFFF, 0x110031] [] s) = .next { s with gcrc := 0xC782, input := [] })

/-- R54: after GEN_INIT and any stream with no further GEN_INIT, `gcrc` is the CRC of the bytes the
GEN_BYTE events of the stream fed, whatever else is interleaved; and a frame-path event neither writes
`gcrc` nor reads it. -/
def Obligations.GeneratorComputesTheCrcUnderInterleaving : Prop :=
  (∀ (s : State) (seed : Half) (ws : List EventWord) (rest : List Input), BlockInv s →
    (∀ w ∈ ws, isGenInit w = false) →
    ∃ t, runSteps (ws.length + 1) (presenting (encode (.genInit seed) :: ws) rest s) = .next t ∧
      t.gcrc = crc16 (genBytesOf ws) seed ∧ t.input = rest) ∧
  (∀ (s t : State) (w : EventWord) (g : Half), isFramePath w = true → exec (decode w) s = .next t →
    t.gcrc = s.gcrc ∧ exec (decode w) { s with gcrc := g } = .next { t with gcrc := g })

/-- The frame path and the generator path do not interfere (20_memory.md §6, 42_decoder.md §5,
60_exceptions.md §6): running a stream, running only its frame-path events and running only its generator
events all complete; the full run ends with the registers and PBUF of the second run but for `gcrc`, with
the `gcrc` of the third, and with the records of the second run plus ILLEGAL_EVENT records; the third run
changes nothing but `gcrc`. -/
def Obligations.FramePathAndGeneratorDoNotInterfere : Prop :=
  ∀ (s : State) (ws : List EventWord) (rest : List Input), BlockInv s →
    ∃ t f g,
      runSteps ws.length (presenting ws rest s) = .next t ∧
      runSteps (ws.filter isFramePath).length (presenting (ws.filter isFramePath) rest s) = .next f ∧
      runSteps (ws.filter isGenerator).length (presenting (ws.filter isGenerator) rest s) = .next g ∧
      t = { f with gcrc := g.gcrc, output := t.output } ∧
      t.output.filter (fun r => !isIllegalRecord r) = f.output.filter (fun r => !isIllegalRecord r) ∧
      g = { s with gcrc := g.gcrc, input := rest }

/-! ## Sync unit -/

/-- R58: BYTE in SEEKING_SYNC. -/
def Obligations.SeekingByteScansForTheMarker : Prop :=
  (∀ b : Byte, decode (0x0000#16 ++ b) = .byte b) ∧
  (∀ (s : State) (b : Byte), s.st = .seekingSync →
    (s.seenAa = true ∧ b = 0x55 →
      exec (.byte b) s =
        .next { s with st := .readingHeader, cnt := 0, fcrc := 0xFFFF, seenAa := false }) ∧
    (¬ (s.seenAa = true ∧ b = 0x55) →
      exec (.byte b) s = .next { s with seenAa := decide (b = 0xAA) })) ∧
  (∀ (s : State) (rest : List Input), s.st = .seekingSync →
    runSteps 3 (presenting (asmBytes [0xAA, 0xAA, 0x55]) rest s) =
      .next { s with st := .readingHeader, cnt := 0, fcrc := 0xFFFF, seenAa := false, input := rest } ∧
    runSteps 3 (presenting (asmBytes [0xAA, 0x00, 0x55]) rest s) =
      .next { s with seenAa := false, input := rest })

/-- R59: NODATA in SEEKING_SYNC. -/
def Obligations.SeekingNoDataReportsNoFrame : Prop :=
  (∀ s : State, s.st = .seekingSync →
    exec .noData s =
      .next { s with seenAa := false, output := s.output ++ [.noFrameAvailable] }) ∧
  (∀ (s : State) (n : Nat) (rest : List Input), s.st = .seekingSync → s.seenAa = false →
    runSteps n (presenting (List.replicate n 0x010000) rest s) =
      .next { s with input := rest, output := s.output ++ List.replicate n .noFrameAvailable }) ∧
  (∀ (s : State) (rest : List Input), s.st = .seekingSync →
    runSteps 3 (presenting [0x0000AA, 0x010000, 0x000055] rest s) =
      .next { s with seenAa := false, input := rest, output := s.output ++ [.noFrameAvailable] })

/-- R60: in a stretch of BYTE events from an entry into SEEKING_SYNC, the marker is found at the first index
whose byte is 0x55 and whose predecessor is 0xAA, and not before. -/
def Obligations.MarkerIsFoundAtTheFirstPair : Prop :=
  ∀ (s : State) (bs : List Byte) (rest : List Input), s.st = .seekingSync → s.seenAa = false →
    (∀ i : Nat, ¬ (bs[i]? = some (0xAA : Byte) ∧ bs[i + 1]? = some (0x55 : Byte))) →
    runSteps bs.length (presenting (asmBytes bs) rest s) =
      .next { s with seenAa := decide (bs.getLast? = some 0xAA), input := rest } ∧
    (bs.getLast? = some 0xAA →
      runSteps (bs.length + 1) (presenting (asmBytes (bs ++ [0x55])) rest s) =
        .next { s with st := .readingHeader, cnt := 0, fcrc := 0xFFFF, seenAa := false, input := rest })

/-- No partial marker crosses an entry into SEEKING_SYNC or CLOSED, or a start of an attempt: `seen_aa` is 0
and `cnt` is 0 after every step that changes the control state (10_state.md §2, §5; 60_exceptions.md §2). -/
def Obligations.ChangeOfControlStateClearsSeenAaAndCount : Prop :=
  ∀ s t : State, BlockInv s → step s = .next t → t.st ≠ s.st → t.seenAa = false ∧ t.cnt = 0

/-! ## Decoder unit -/

/-- R65: where each header byte goes, for all nine, and that each enters the running CRC. What is neither
a header register nor `fcrc`, `st`, `seen_aa`, `cnt` or the output is unchanged. -/
def Obligations.HeaderByteGoesToItsField : Prop :=
  ∀ (s : State) (b : Byte), s.st = .readingHeader → s.cnt.toNat ≤ 8 →
    ∃ t, exec (.byte b) s = .next t ∧
      t.fcrc = crcStep s.fcrc b ∧
      t.fType = (if s.cnt = 0 then b else s.fType) ∧
      t.fSeq = (if s.cnt = 1 then s.fSeq.extractLsb' 8 8 ++ b
        else if s.cnt = 2 then b ++ s.fSeq.extractLsb' 0 8 else s.fSeq) ∧
      t.fLen = (if s.cnt = 3 then s.fLen.extractLsb' 8 8 ++ b
        else if s.cnt = 4 then b ++ s.fLen.extractLsb' 0 8 else s.fLen) ∧
      t.fTs = (if s.cnt = 5 then s.fTs.extractLsb' 8 24 ++ b
        else if s.cnt = 6 then s.fTs.extractLsb' 16 16 ++ b ++ s.fTs.extractLsb' 0 8
        else if s.cnt = 7 then s.fTs.extractLsb' 24 8 ++ b ++ s.fTs.extractLsb' 0 16
        else if s.cnt = 8 then b ++ s.fTs.extractLsb' 0 24 else s.fTs) ∧
      t.crcLo = s.crcLo ∧ t.closeCause = s.closeCause ∧ t.gcrc = s.gcrc ∧ t.cfg = s.cfg ∧
      t.input = s.input ∧ ∀ i, pbufByte t i = pbufByte s i

/-- R66, with the progress of R64: before the ninth header byte only `cnt` advances, and no ceiling is
checked; at the ninth the ceiling is checked first, then the zero length. -/
def Obligations.NinthHeaderByteDecides : Prop :=
  ∀ (s : State) (b : Byte), s.st = .readingHeader →
    (s.cnt.toNat < 8 → ∃ t, exec (.byte b) s = .next t ∧
      t.st = .readingHeader ∧ t.cnt.toNat = s.cnt.toNat + 1 ∧ t.seenAa = s.seenAa ∧
      t.output = s.output) ∧
    (s.cnt.toNat = 8 → ∃ t, exec (.byte b) s = .next t ∧ t.cnt = 0 ∧
      ((∃ n, s.cfg.maxLen = some n ∧ n.toNat < s.fLen.toNat) →
        t.st = .seekingSync ∧ t.seenAa = false ∧ t.output = s.output ++ [.oversizedFrame]) ∧
      (¬ (∃ n, s.cfg.maxLen = some n ∧ n.toNat < s.fLen.toNat) →
        t.seenAa = s.seenAa ∧ t.output = s.output ∧
        (s.fLen = 0 → t.st = .readingCrc) ∧ (s.fLen ≠ 0 → t.st = .readingPayload))) ∧
    (s.fLen = 0 → ¬ ∃ n, s.cfg.maxLen = some n ∧ n.toNat < s.fLen.toNat)

/-- The whole next state of the OVERSIZED_FRAME outcome, and that the bytes after it are scanned for a
marker and not skipped (42_decoder.md §2). -/
def Obligations.OversizedFrameIsNotSkipped : Prop :=
  ∀ (s : State) (b : Byte) (n : Half) (rest : List Input), s.st = .readingHeader → s.cnt = 8 →
    s.cfg.maxLen = some n → n.toNat < s.fLen.toNat →
    exec (.byte b) s =
      .next { s with
        fTs := b ++ s.fTs.extractLsb' 0 24, fcrc := crcStep s.fcrc b,
        st := .seekingSync, seenAa := false, cnt := 0, output := s.output ++ [.oversizedFrame] } ∧
    runSteps 3 (presenting (asmBytes [b, 0xAA, 0x55]) rest s) =
      .next { s with
        fTs := b ++ s.fTs.extractLsb' 0 24, fcrc := 0xFFFF,
        st := .readingHeader, seenAa := false, cnt := 0, input := rest,
        output := s.output ++ [.oversizedFrame] }

/-- BYTE in READING_PAYLOAD: the whole next state, and every index of PBUF read after it
(42_decoder.md §3). -/
def Obligations.PayloadByteIsStored : Prop :=
  ∀ (s : State) (b : Byte), s.st = .readingPayload → s.cnt.toNat < s.fLen.toNat →
    s.fLen.toNat ≤ pbufSize s.cfg →
    ∃ t, exec (.byte b) s = .next t ∧
      t = { s with
        pbuf := t.pbuf, fcrc := crcStep s.fcrc b,
        st := if s.cnt.toNat + 1 = s.fLen.toNat then .readingCrc else .readingPayload,
        cnt := if s.cnt.toNat + 1 = s.fLen.toNat then 0 else s.cnt + 1 } ∧
      pbufByte t s.cnt.toNat = b ∧
      ∀ i, i ≠ s.cnt.toNat → pbufByte t i = pbufByte s i

/-- R73: the low checksum byte. -/
def Obligations.LowChecksumByteIsKept : Prop :=
  ∀ (s : State) (b : Byte), s.st = .readingCrc → s.cnt = 0 →
    exec (.byte b) s = .next { s with crcLo := b, cnt := 1 }

/-- The high checksum byte: FRAME_VALID with every field, or CHECKSUM_MISMATCH, by exact equality of the
received checksum and the running CRC (42_decoder.md §4). -/
def Obligations.HighChecksumByteDecides : Prop :=
  ∀ (s : State) (b : Byte), s.st = .readingCrc → s.cnt = 1 →
    (b.toNat * 256 + s.crcLo.toNat = s.fcrc.toNat → s.fLen.toNat ≤ pbufSize s.cfg →
      exec (.byte b) s =
        .next { s with
          st := .seekingSync, seenAa := false, cnt := 0,
          output := s.output ++ [.frameValid {
            type := s.fType, sequence := s.fSeq, length := s.fLen, timestamp := s.fTs,
            payload := readPayload s s.fLen.toNat, checksum := s.fcrc,
            elemental :=
              if s.fType = 0x20 ∧ s.fLen = 4 then
                some (elementalDecode (pbufByte s 0) (pbufByte s 1) (pbufByte s 2) (pbufByte s 3))
              else none }] }) ∧
    (b.toNat * 256 + s.crcLo.toNat ≠ s.fcrc.toNat →
      exec (.byte b) s =
        .next { s with
          st := .seekingSync, seenAa := false, cnt := 0,
          output := s.output ++ [.checksumMismatch s.fcrc (b ++ s.crcLo)] }) ∧
    (readPayload s s.fLen.toNat).length = s.fLen.toNat ∧
    ∀ i, i < s.fLen.toNat → (readPayload s s.fLen.toNat)[i]? = some (pbufByte s i)

/-- NODATA in the three reading states: the whole next state, the phase codes, and the range of `got` under
the invariant (42_decoder.md §2, §3, §4). -/
def Obligations.NoDataInAFrameIsAShortRead : Prop :=
  ∀ s : State,
    (s.st = .readingHeader →
      exec .noData s = .next { s with
        st := .seekingSync, seenAa := false, cnt := 0,
        output := s.output ++ [.incompleteFrame .header s.cnt] } ∧ phaseCode .header = 1 ∧
      (BlockInv s → s.cnt.toNat ≤ 8)) ∧
    (s.st = .readingPayload →
      exec .noData s = .next { s with
        st := .seekingSync, seenAa := false, cnt := 0,
        output := s.output ++ [.incompleteFrame .payload s.cnt] } ∧ phaseCode .payload = 2 ∧
      (BlockInv s → s.cnt.toNat ≤ s.fLen.toNat - 1 ∧ 1 ≤ s.fLen.toNat)) ∧
    (s.st = .readingCrc →
      exec .noData s = .next { s with
        st := .seekingSync, seenAa := false, cnt := 0,
        output := s.output ++ [.incompleteFrame .crc s.cnt] } ∧ phaseCode .crc = 3 ∧
      (BlockInv s → s.cnt = 0 ∨ s.cnt = 1))

/-- The decode attempt ends with exactly one outcome record: an event in a reading state either leaves the
block in a reading state and emits nothing but an ILLEGAL_EVENT, or ends the attempt and emits one outcome
(42_decoder.md §1). -/
def Obligations.AttemptEndsWithExactlyOneOutcome : Prop :=
  ∀ (s t : State) (w : EventWord) (rest : List Input), s.input = .event w :: rest → inFrame s = true →
    step s = .next t →
    (inFrame t = true ∧ (t.output = s.output ∨ t.output = s.output ++ [.illegalEvent w])) ∨
    (inFrame t = false ∧ ∃ r, isOutcome r = true ∧ t.output = s.output ++ [r])

/-- Soundness of FRAME_VALID: its payload has the declared length, its checksum is the CRC of its own body,
its length is under the ceiling, and its `elemental` field is the decode of its own payload exactly when the
type is 0x20 and the length 4 (42_decoder.md §5, 30_encoding.md §4). -/
def Obligations.EveryValidRecordIsSound : Prop :=
  ∀ (s t : State) (f : Frame), BlockInv s → step s = .next t → t.output = s.output ++ [.frameValid f] →
    f.payload.length = f.length.toNat ∧
    f.checksum = crc16 (bodyBytes f.type f.sequence f.length f.timestamp f.payload) 0xFFFF ∧
    (∀ n, s.cfg.maxLen = some n → f.length.toNat ≤ n.toNat) ∧
    (¬ (f.type = 0x20 ∧ f.length = 4) → f.elemental = none) ∧
    (f.type = 0x20 ∧ f.length = 4 →
      ∃ p0 p1 p2 p3, f.payload = [p0, p1, p2, p3] ∧
        f.elemental = some (elementalDecode p0 p1 p2 p3))

/-- Every frame on the stream is decoded with its fields as sent (41_sync.md §2; 42_decoder.md §2 to §4, R77
among them; 30_encoding.md §2, §4):
from any state in SEEKING_SYNC, the event words of a frame whose length the ceiling allows, followed by any
further inputs, emit exactly one record, FRAME_VALID with the fields sent. -/
def Obligations.EveryFrameDecodesAsSent : Prop :=
  ∀ (s : State) (t : Byte) (q : Half) (ts : Quad) (p : List Byte) (rest : List Input),
    s.st = .seekingSync → p.length ≤ 65535 → (∀ n, s.cfg.maxLen = some n → p.length ≤ n.toNat) →
    ∃ u, runSteps (13 + p.length) (presenting (asmFrame t q ts p) rest s) = .next u ∧
      u.st = .seekingSync ∧ u.seenAa = false ∧ u.cnt = 0 ∧ u.input = rest ∧
      u.gcrc = s.gcrc ∧ u.closeCause = s.closeCause ∧
      u.output = s.output ++ [.frameValid {
        type := t, sequence := q, length := BitVec.ofNat 16 p.length, timestamp := ts, payload := p,
        checksum := crc16 (bodyBytes t q (BitVec.ofNat 16 p.length) ts p) 0xFFFF,
        elemental := match p with
          | [p0, p1, p2, p3] => if t = 0x20 then some (elementalDecode p0 p1 p2 p3) else none
          | _ => none }]

/-- A frame whose checksum field is not the CRC of its body is rejected with both values, and a frame that
follows immediately is recovered with its fields as sent (41_sync.md §2; 42_decoder.md §2 to §5;
95_test_vectors.md §1.5). -/
def Obligations.FrameAfterAChecksumMismatchIsRecovered : Prop :=
  ∀ (s : State) (t₁ t₂ : Byte) (q₁ q₂ : Half) (ts₁ ts₂ : Quad) (p₁ p₂ : List Byte) (c : Half)
    (rest : List Input), s.st = .seekingSync →
    p₁.length ≤ 65535 → (∀ n, s.cfg.maxLen = some n → p₁.length ≤ n.toNat) →
    p₂.length ≤ 65535 → (∀ n, s.cfg.maxLen = some n → p₂.length ≤ n.toNat) →
    c ≠ crc16 (bodyBytes t₁ q₁ (BitVec.ofNat 16 p₁.length) ts₁ p₁) 0xFFFF →
    ∃ u f,
      runSteps (13 + p₁.length + (13 + p₂.length))
        (presenting
          (asmRawFrame t₁ q₁ (BitVec.ofNat 16 p₁.length) ts₁ p₁ c ++ asmFrame t₂ q₂ ts₂ p₂) rest s) =
        .next u ∧
      u.output = s.output ++
        [.checksumMismatch (crc16 (bodyBytes t₁ q₁ (BitVec.ofNat 16 p₁.length) ts₁ p₁) 0xFFFF) c,
          .frameValid f] ∧
      f.type = t₂ ∧ f.sequence = q₂ ∧ f.timestamp = ts₂ ∧ f.payload = p₂ ∧
      u.st = .seekingSync ∧ u.input = rest

/-- Noise without a marker pair before a frame does no harm, even if it ends in 0xAA: exactly that one frame
is emitted, with its fields as sent (41_sync.md §2, 42_decoder.md §2 to §4; the source's robustness
property). -/
def Obligations.FrameAfterNoiseIsRecovered : Prop :=
  ∀ (s : State) (noise : List Byte) (t : Byte) (q : Half) (ts : Quad) (p : List Byte)
    (rest : List Input), s.st = .seekingSync → s.seenAa = false →
    (∀ i : Nat, ¬ (noise[i]? = some (0xAA : Byte) ∧ noise[i + 1]? = some (0x55 : Byte))) →
    p.length ≤ 65535 → (∀ n, s.cfg.maxLen = some n → p.length ≤ n.toNat) →
    ∃ u f,
      runSteps (noise.length + (13 + p.length))
        (presenting (asmBytes noise ++ asmFrame t q ts p) rest s) = .next u ∧
      u.output = s.output ++ [.frameValid f] ∧
      f.type = t ∧ f.sequence = q ∧ f.timestamp = ts ∧ f.payload = p ∧
      u.st = .seekingSync ∧ u.input = rest

/-! ## Codec unit -/

/-- R83: `elemental` is present exactly for a valid frame of type 0x20 and length 4, the payload of every
valid frame is passed through as it stands in PBUF, and the record that carries the two is emitted only for a
valid frame: on the high checksum byte, when the received checksum equals the running CRC. -/
def Obligations.ElementalIsPresentExactlyForTheBusFrame : Prop :=
  ∀ (s t : State) (f : Frame), step s = .next t → t.output = s.output ++ [.frameValid f] →
    (f.elemental.isSome = true ↔ f.type = 0x20 ∧ f.length = 4) ∧
    f.payload = (List.range f.length.toNat).map (pbufByte s) ∧
    (∃ (b : Byte) (rest : List Input), s.input = .event (0x0000#16 ++ b) :: rest ∧ s.st = .readingCrc ∧
      s.cnt = 1 ∧ b ++ s.crcLo = s.fcrc)

/-- R84 and R85: each lane is the signed reading of its own byte and that reading divided by 127, lane 0 in
earth to lane 3 in fire; in a valid frame the four bytes are PBUF[0] to PBUF[3]. -/
def Obligations.ElementalLanesAreSignedBytesOver127 : Prop :=
  (∀ p : Byte,
    (lane p).raw = (if p.toNat < 128 then (p.toNat : Int) else (p.toNat : Int) - 256) ∧
    (lane p).norm = ((lane p).raw : Rat) / 127) ∧
  (∀ p0 p1 p2 p3 : Byte,
    (elementalDecode p0 p1 p2 p3).earth = lane p0 ∧ (elementalDecode p0 p1 p2 p3).air = lane p1 ∧
    (elementalDecode p0 p1 p2 p3).water = lane p2 ∧ (elementalDecode p0 p1 p2 p3).fire = lane p3) ∧
  (∀ s : State, s.fType = 0x20 → s.fLen = 4 →
    elementalField s =
      some (elementalDecode (pbufByte s 0) (pbufByte s 1) (pbufByte s 2) (pbufByte s 3))) ∧
  (lane 0x80).raw = -128 ∧ (lane 0xFF).raw = -1 ∧ (lane 0x7F).raw = 127 ∧ (lane 0x00).raw = 0 ∧
  elementalDecode 0x0A 0xF6 0x40 0xC0 =
    ⟨⟨10, 10 / 127⟩, ⟨-10, -10 / 127⟩, ⟨64, 64 / 127⟩, ⟨-64, -64 / 127⟩⟩

/-- R87 and R88: the normalized value is the raw value over 127 and nothing else is done to it; its range is
[-128/127, 1], and only the byte 0x80 leaves [-1, 1]. -/
def Obligations.NormalizedRangeKeepsTheOvershoot : Prop :=
  (∀ p : Byte, (lane p).norm = ((lane p).raw : Rat) / 127) ∧
  (∀ p : Byte, (-128 / 127 : Rat) ≤ (lane p).norm ∧ (lane p).norm ≤ 1 ∧
    ((lane p).norm < -1 ↔ p = 0x80)) ∧
  (lane 0x80).norm = -128 / 127 ∧ (lane 0x7F).norm = 1 ∧ (lane 0x81).norm = -1 ∧ (lane 0x00).norm = 0

/-- The binary64 form of a normalized value is a normal number whose significand is the nearest to the exact
quotient (no tie can occur), with the sign of the raw value; zero gives +0 (43_codec.md, the float form;
log entry 10). The word is `sign * 2^63 + e * 2^52 + m` with value `(2^52 + m) * 2^(e - 1075)`. -/
def Obligations.Binary64FormIsTheNearest : Prop :=
  norm64 0 = 0 ∧
  ∀ p : Byte, (lane p).raw ≠ 0 →
    ∃ sign e m : Nat,
      norm64 (lane p).raw = BitVec.ofNat 64 (sign * 2 ^ 63 + e * 2 ^ 52 + m) ∧
      m < 2 ^ 52 ∧ 1 ≤ e ∧ e ≤ 1075 ∧ sign = (if (lane p).raw < 0 then 1 else 0) ∧
      2 * (((2 ^ 52 + m : Nat) : Int) * 127 - (lane p).raw.natAbs * 2 ^ (1075 - e)).natAbs < 127

/-! ## Errors, end of stream, illegal words -/

/-- R40: an illegal word, in every control state. -/
def Obligations.IllegalWordOnlyReports : Prop :=
  (∀ (s : State) (w : EventWord),
    exec (.illegal w) s = .next { s with output := s.output ++ [.illegalEvent w] }) ∧
  (∀ (s : State) (w : EventWord) (rest : List Input), s.input = .event w :: rest →
    (legalWord w = false ∨
      (w.toNat / 65536 ∉ [0x00, 0x01, 0x02, 0x03, 0x10, 0x11])) →
    step s = .next { s with input := rest, output := s.output ++ [.illegalEvent w] })

/-- R97: EOF in any state other than CLOSED. -/
def Obligations.EofClosesTheFramePath : Prop :=
  decode 0x020000 = .eof ∧
  ∀ s : State, s.st ≠ .closed →
    exec .eof s = .next { s with
      st := .closed, closeCause := .eof, seenAa := false, cnt := 0,
      output := s.output ++ [.sourceClosed
        (decide (s.st = .readingHeader ∨ s.st = .readingPayload ∨ s.st = .readingCrc))] }

/-- R98: CANCEL in any state other than CLOSED. -/
def Obligations.CancelClosesTheFramePath : Prop :=
  decode 0x030000 = .cancel ∧
  ∀ s : State, s.st ≠ .closed →
    exec .cancel s = .next { s with
      st := .closed, closeCause := .cancel, seenAa := false, cnt := 0,
      output := s.output ++ [.cancelled
        (decide (s.st = .readingHeader ∨ s.st = .readingPayload ∨ s.st = .readingCrc))] }

/-- R99: CLOSED absorbs every frame-path event; the generator and illegal words still act; only reset leaves
CLOSED. -/
def Obligations.ClosedAbsorbsFramePathEvents : Prop :=
  ∀ s : State, s.st = .closed →
    (∀ b, exec (.byte b) s = .next s) ∧ exec .noData s = .next s ∧ exec .eof s = .next s ∧
    exec .cancel s = .next s ∧
    (∀ seed, exec (.genInit seed) s = .next { s with gcrc := seed }) ∧
    (∀ b, exec (.genByte b) s = .next { s with gcrc := crcStep s.gcrc b }) ∧
    (∀ w, exec (.illegal w) s = .next { s with output := s.output ++ [.illegalEvent w] }) ∧
    (∀ t, step s = .next t → t.st ≠ .closed →
      ∃ rest, s.input = .reset :: rest ∨ ∃ w, s.input = .resetWithEvent w :: rest)

/-- Each emitted record fixes where control goes (60_exceptions.md §1, §2): the recoverable frame outcomes
to SEEKING_SYNC, SOURCE_CLOSED and CANCELLED to CLOSED, each with `seen_aa` and `cnt` cleared;
NO_FRAME_AVAILABLE stays in SEEKING_SYNC; ILLEGAL_EVENT changes no state. -/
def Obligations.EmittedRecordFixesTheControlState : Prop :=
  ∀ (s t : State) (r : Record), step s = .next t → t.output = s.output ++ [r] →
    match r with
    | .frameValid _ => s.st = .readingCrc ∧ t.st = .seekingSync ∧ t.seenAa = false ∧ t.cnt = 0
    | .incompleteFrame _ _ => inFrame s = true ∧ t.st = .seekingSync ∧ t.seenAa = false ∧ t.cnt = 0
    | .checksumMismatch _ _ => s.st = .readingCrc ∧ t.st = .seekingSync ∧ t.seenAa = false ∧ t.cnt = 0
    | .oversizedFrame => s.st = .readingHeader ∧ t.st = .seekingSync ∧ t.seenAa = false ∧ t.cnt = 0
    | .noFrameAvailable => s.st = .seekingSync ∧ t.st = .seekingSync ∧ t.seenAa = false
    | .sourceClosed b =>
      b = inFrame s ∧ s.st ≠ .closed ∧ t.st = .closed ∧ t.closeCause = .eof ∧ t.seenAa = false ∧ t.cnt = 0
    | .cancelled b =>
      b = inFrame s ∧ s.st ≠ .closed ∧ t.st = .closed ∧ t.closeCause = .cancel ∧ t.seenAa = false ∧
        t.cnt = 0
    | .illegalEvent w =>
      ∃ rest, s.input = .event w :: rest ∧
        t = { s with input := rest, output := s.output ++ [.illegalEvent w] }

/-- R21: `close_cause` is written only by EOF and CANCEL, and only reset clears it. -/
def Obligations.CloseCauseIsWrittenOnlyAtTheEnd : Prop :=
  causeCode .none = 0 ∧ causeCode .eof = 1 ∧ causeCode .cancel = 2 ∧
  ∀ s t : State, BlockInv s → step s = .next t →
    (t.closeCause = .none → t.st ≠ .closed) ∧
    (t.closeCause ≠ s.closeCause →
      (∃ rest, s.input = .event 0x020000 :: rest ∧ s.st ≠ .closed ∧ t.closeCause = .eof) ∨
      (∃ rest, s.input = .event 0x030000 :: rest ∧ s.st ≠ .closed ∧ t.closeCause = .cancel) ∨
      (∃ rest, (s.input = .reset :: rest ∨ ∃ w, s.input = .resetWithEvent w :: rest) ∧
        t.closeCause = .none))

/-! ## Frames: what an event leaves unchanged -/

/-- NODATA, EOF, CANCEL and ILLEGAL leave every register of the frame but `st`, `seen_aa`, `cnt` and
`close_cause`, the generator, the parameter, the inputs and every byte of PBUF unchanged; NODATA and ILLEGAL
leave `close_cause` too; GEN_INIT and GEN_BYTE leave everything but `gcrc` (10_state.md §3, §4, §5). -/
def Obligations.EventsThatStoreNothingLeaveTheFrame : Prop :=
  ∀ (s t : State) (i : Instr), (∀ b, i ≠ .byte b) → exec i s = .next t →
    t.fType = s.fType ∧ t.fSeq = s.fSeq ∧ t.fLen = s.fLen ∧ t.fTs = s.fTs ∧ t.fcrc = s.fcrc ∧
    t.crcLo = s.crcLo ∧ t.cfg = s.cfg ∧ t.input = s.input ∧
    (∀ a, pbufByte t a = pbufByte s a) ∧
    (i ≠ .eof → i ≠ .cancel → t.closeCause = s.closeCause) ∧
    ((∀ seed, i ≠ .genInit seed) → (∀ b, i ≠ .genByte b) → t.gcrc = s.gcrc) ∧
    (((∃ seed, i = .genInit seed) ∨ (∃ b, i = .genByte b)) →
      t = { s with gcrc := t.gcrc })

/-- BYTE leaves the generator, `close_cause`, the parameter and the inputs unchanged; the header registers
outside READING_HEADER; `crc_lo` but for the low checksum byte; `fcrc` in READING_CRC and CLOSED, and in
SEEKING_SYNC while the block stays there; and every byte of PBUF but the one at index `cnt` that
READING_PAYLOAD stores (10_state.md §3, §4, §5; 20_memory.md §1). -/
def Obligations.ByteLeavesTheRest : Prop :=
  ∀ (s t : State) (b : Byte), exec (.byte b) s = .next t →
    t.gcrc = s.gcrc ∧ t.closeCause = s.closeCause ∧ t.cfg = s.cfg ∧ t.input = s.input ∧
    (s.st ≠ .readingHeader →
      t.fType = s.fType ∧ t.fSeq = s.fSeq ∧ t.fLen = s.fLen ∧ t.fTs = s.fTs) ∧
    (¬ (s.st = .readingCrc ∧ s.cnt = 0) → t.crcLo = s.crcLo) ∧
    (s.st = .readingCrc ∨ s.st = .closed → t.fcrc = s.fcrc) ∧
    (s.st = .seekingSync → t.st = .seekingSync → t.fcrc = s.fcrc) ∧
    (s.st ≠ .readingPayload → ∀ a, pbufByte t a = pbufByte s a) ∧
    (s.st = .readingPayload → ∀ a, a ≠ s.cnt.toNat → pbufByte t a = pbufByte s a)

/-- Over whole steps, reset included: PBUF changes only at index `cnt`, only by a BYTE in READING_PAYLOAD,
and only to the byte it carries (10_state.md §5; 20_memory.md §1). -/
def Obligations.PbufChangesOnlyAtTheCountInThePayload : Prop :=
  ∀ s t : State, step s = .next t →
    (∀ a, pbufByte t a = pbufByte s a) ∨
    (s.st = .readingPayload ∧ ∃ b rest, s.input = .event (0x0000#16 ++ b) :: rest ∧
      pbufByte t s.cnt.toNat = b ∧ ∀ a, a ≠ s.cnt.toNat → pbufByte t a = pbufByte s a)

/-! ## Reset -/

/-- The state right after reset (10_state.md §1, 70_reset_and_hazards.md §1), for every MAX_LEN; the lists
of inputs and records are empty and PBUF has never been written (the model's choice, log entries 1, 4
and 7), and `State.reset` itself takes MAX_LEN = NONE (log entry 3). -/
def Obligations.ResetStateHoldsTheResetValues : Prop :=
  (∀ cfg : Config,
    let s := State.resetWith cfg
    s.cfg = cfg ∧ ctlCode s.st = 0 ∧ s.seenAa = false ∧ s.cnt = 0 ∧ s.fType = 0 ∧ s.fSeq = 0 ∧
    s.fLen = 0 ∧ s.fTs = 0 ∧ s.fcrc = 0xFFFF ∧ s.crcLo = 0 ∧ causeCode s.closeCause = 0 ∧
    s.gcrc = 0xFFFF ∧ s.pbuf = [] ∧ s.input = [] ∧ s.output = []) ∧
  State.reset = State.resetWith ⟨none⟩

/-- R107: a reset step, from every state. -/
def Obligations.ResetStepWritesTheResetValues : Prop :=
  ∀ (s : State) (rest : List Input), s.input = .reset :: rest →
    ∃ t, step s = .next t ∧
      t.st = .seekingSync ∧ t.seenAa = false ∧ t.cnt = 0 ∧
      t.fType = 0 ∧ t.fSeq = 0 ∧ t.fLen = 0 ∧ t.fTs = 0 ∧
      t.fcrc = 0xFFFF ∧ t.crcLo = 0 ∧ t.closeCause = .none ∧ t.gcrc = 0xFFFF ∧
      t.pbuf = s.pbuf ∧ t.cfg = s.cfg ∧ t.output = s.output ∧ t.input = rest

/-- R108: reset has priority, and an event presented with it is not consumed: it has no effect, and it is
delivered afterwards exactly when the environment presents it again. -/
def Obligations.ResetHasPriorityOverAnEvent : Prop :=
  (∀ (s : State) (w : EventWord) (rest : List Input),
    step { s with input := .resetWithEvent w :: rest } = step { s with input := .reset :: rest }) ∧
  (∀ (s : State) (w : EventWord) (rest : List Input),
    ∃ t, step { s with input := .resetWithEvent w :: .event w :: rest } = .next t ∧
      t.input = .event w :: rest ∧ step t = exec (decode w) { t with input := rest })

/-- R109: reset in the middle of an attempt, or in CLOSED, reopens the frame path without emitting
anything, and it is the only way out of CLOSED. -/
def Obligations.ResetIsTheOnlyWayOutOfClosed : Prop :=
  (∀ (s : State) (rest : List Input),
    (s.input = .reset :: rest ∨ ∃ w, s.input = .resetWithEvent w :: rest) →
    ∃ t, step s = .next t ∧ t.st = .seekingSync ∧ t.seenAa = false ∧ t.closeCause = .none ∧
      t.output = s.output) ∧
  (∀ s t : State, s.st = .closed → step s = .next t → t.st ≠ .closed →
    ∃ rest, s.input = .reset :: rest ∨ ∃ w, s.input = .resetWithEvent w :: rest)
end

