-- ==== Sys2Proof/Laws/Crc.lean ====
section
/-! SUPPORT. The fold of the CRC unit, one byte at a time. -/

namespace Sys2Proof.Machine

@[simp] theorem crc16_nil (seed : Half) : crc16 [] seed = seed := rfl

@[simp] theorem crc16_cons (b : Byte) (bs : List Byte) (seed : Half) :
    crc16 (b :: bs) seed = crc16 bs (crcStep seed b) := rfl

/-- One more byte at the end of the span is one more byte step: why the running CRC of a frame is the CRC
of the bytes received so far (10_state.md R19). -/
theorem crc16_concat (bs : List Byte) (b : Byte) (seed : Half) :
    crc16 (bs ++ [b]) seed = crcStep (crc16 bs seed) b := by
  simp [crc16, List.foldl_append]

@[simp] theorem crcShifts_zero (x : Half) : crcShifts 0 x = x := rfl

@[simp] theorem crcShifts_succ (n : Nat) (x : Half) :
    crcShifts (n + 1) x = crcShifts n (crcShift x) := rfl

end Sys2Proof.Machine
end

