-- ==== Sys2Proof/Laws/Decode.lean ====
section
/-! SUPPORT. The fields of an encoded word, and each row of the opcode table on them. -/

namespace Sys2Proof

/-- A row fits a word exactly when the masked bits are the pattern. -/
theorem fits_iff (mask pattern ev : EventWord) :
    fits mask pattern ev = true ↔ ev &&& mask = pattern := by
  simp [fits]

theorem dataByte_append (h : Half) (b : Byte) : dataByte (h ++ b) = b := by
  apply BitVec.eq_of_getLsbD_eq
  intro i hi
  rw [dataByte, BitVec.getLsbD_extractLsb', Nat.zero_add, BitVec.getLsbD_append]
  simp [hi]

theorem seedField_append (op : Byte) (seed : Half) : seedField (op ++ seed) = seed := by
  apply BitVec.eq_of_getLsbD_eq
  intro i hi
  rw [seedField, BitVec.getLsbD_extractLsb', Nat.zero_add, BitVec.getLsbD_append]
  simp [hi]

/-- On a word written as its upper 16 bits and a byte, the mask `FFFF00` keeps the upper bits. -/
theorem and_mask_upper (h : Half) (b : Byte) : (h ++ b : EventWord) &&& 0xFFFF00#24 = h ++ 0#8 := by
  apply BitVec.eq_of_getLsbD_eq
  intro i hi
  have h1 : (0xFFFF00#24).getLsbD i = decide (8 ≤ i) := by interval_cases i <;> rfl
  rw [BitVec.getLsbD_and, h1, BitVec.getLsbD_append, BitVec.getLsbD_append]
  by_cases h8 : i < 8
  · simp [h8, show ¬ 8 ≤ i by omega]
  · simp [h8, show 8 ≤ i by omega]

/-- On a word written as its operation code and a 16-bit argument, the mask `FF0000` keeps the operation
code. -/
theorem and_mask_op (op : Byte) (arg : Half) :
    (op ++ arg : EventWord) &&& 0xFF0000#24 = op ++ 0#16 := by
  apply BitVec.eq_of_getLsbD_eq
  intro i hi
  have h1 : (0xFF0000#24).getLsbD i = decide (16 ≤ i) := by interval_cases i <;> rfl
  rw [BitVec.getLsbD_and, h1, BitVec.getLsbD_append, BitVec.getLsbD_append]
  by_cases h16 : i < 16
  · simp [h16, show ¬ 16 ≤ i by omega]
  · simp [h16, show 16 ≤ i by omega]

/-- Every word is its upper 16 bits and its data byte. -/
theorem eq_upper_append_dataByte (w : EventWord) : w = w.extractLsb' 8 16 ++ dataByte w := by
  apply BitVec.eq_of_getLsbD_eq
  intro i hi
  rw [BitVec.getLsbD_append]
  split
  · simp [dataByte, *]
  · simp [show 8 + (i - 8) = i by omega]; omega

/-- Every word is its operation code and its argument. -/
theorem eq_op_append_seedField (w : EventWord) : w = w.extractLsb' 16 8 ++ seedField w := by
  apply BitVec.eq_of_getLsbD_eq
  intro i hi
  rw [BitVec.getLsbD_append]
  split
  · simp [seedField, *]
  · simp [show 16 + (i - 16) = i by omega]; omega

end Sys2Proof
end

