-- ==== Sys2Proof/Laws/Memory.lean ====
section
/-! SUPPORT. The laws of PBUF: a read after a write, what a write leaves alone, and that the only operation
that changes PBUF keeps its canonical form and its index range. -/

namespace Sys2Proof.Machine

@[simp] theorem Memory.read?_nil (i : Nat) : Memory.read? [] i = none := rfl

/-- An index below every listed one is not listed. -/
theorem Memory.read?_eq_none_of_lt {i j : Nat} {v : Byte} {m : Memory}
    (h : Memory.wf ((j, v) :: m) = true) (hij : i < j) : Memory.read? ((j, v) :: m) i = none := by
  induction m generalizing j v with
  | nil => simp [Memory.read?]; omega
  | cons c m ih =>
    obtain ⟨k, w⟩ := c
    simp only [Memory.wf, Bool.and_eq_true, decide_eq_true_eq] at h
    have hjk := h.1
    simp only [Memory.read?, show ¬ j = i by omega, if_false] at ih ⊢
    simpa [Memory.read?, show ¬ k = i by omega] using ih h.2 (by omega : i < k)

/-- A read of the index just written gives the byte written. -/
@[simp] theorem Memory.read?_write_self (m : Memory) (i : Nat) (b : Byte) :
    Memory.read? (Memory.write m i b) i = some b := by
  induction m with
  | nil => simp [Memory.write, Memory.read?]
  | cons c m ih =>
    obtain ⟨j, v⟩ := c
    unfold Memory.write
    split
    · simp [Memory.read?]
    · split
      · simp [Memory.read?]
      · simp [Memory.read?, ih, show ¬ j = i by omega]

/-- A write leaves every other index alone. -/
theorem Memory.read?_write_of_ne (m : Memory) {i j : Nat} (b : Byte) (h : j ≠ i) :
    Memory.read? (Memory.write m i b) j = Memory.read? m j := by
  induction m with
  | nil => simp [Memory.write, Memory.read?, Ne.symm h]
  | cons c m ih =>
    obtain ⟨k, v⟩ := c
    unfold Memory.write
    split
    · simp [Memory.read?, Ne.symm h]
    · split
      · subst_vars; simp [Memory.read?, Ne.symm h]
      · simp [Memory.read?, ih]

/-- Where the written list begins. -/
theorem Memory.write_head (m : Memory) (i : Nat) (b : Byte) :
    ∃ j v r, Memory.write m i b = (j, v) :: r ∧ (j = i ∨ ∃ w r', m = (j, w) :: r' ∧ j < i) := by
  cases m with
  | nil => exact ⟨i, b, [], rfl, .inl rfl⟩
  | cons c m =>
    obtain ⟨k, v⟩ := c
    unfold Memory.write
    split
    · exact ⟨i, b, _, rfl, .inl rfl⟩
    · split
      · exact ⟨i, b, _, rfl, .inl rfl⟩
      · exact ⟨k, v, _, rfl, .inr ⟨v, m, rfl, by omega⟩⟩

/-- A write keeps the canonical form. -/
theorem Memory.write_wf {m : Memory} (h : Memory.wf m = true) (i : Nat) (b : Byte) :
    Memory.wf (Memory.write m i b) = true := by
  induction m with
  | nil => rfl
  | cons c m ih =>
    obtain ⟨k, v⟩ := c
    unfold Memory.write
    split
    · simp [Memory.wf, *]
    · split
      · subst_vars
        cases m with
        | nil => rfl
        | cons d m => obtain ⟨l, w⟩ := d; simpa [Memory.wf] using h
      · have hki : k < i := by omega
        have hm : Memory.wf m = true := by
          cases m with
          | nil => rfl
          | cons d m => obtain ⟨l, w⟩ := d; simp [Memory.wf] at h; exact h.2
        have hw := ih hm
        obtain ⟨j, x, r, hr, hj⟩ := Memory.write_head m i b
        rw [hr] at hw ⊢
        simp only [Memory.wf, Bool.and_eq_true, decide_eq_true_eq]
        refine ⟨?_, hw⟩
        obtain rfl | ⟨w, r', rfl, -⟩ := hj
        · exact hki
        · simp [Memory.wf] at h; exact h.1

/-- The entries after a write: the new one and old ones. -/
theorem Memory.mem_write {m : Memory} {i : Nat} {b : Byte} {c : Host.Cell}
    (h : c ∈ Memory.write m i b) : c = (i, b) ∨ c ∈ m := by
  induction m with
  | nil => simpa [Memory.write] using h
  | cons d m ih =>
    obtain ⟨k, v⟩ := d
    unfold Memory.write at h
    split at h
    · simpa [or_assoc] using h
    · split at h
      · simp at h; tauto
      · simp only [List.mem_cons] at h ⊢
        rcases h with h | h
        · tauto
        · have := ih h; tauto

/-! ### The block's reads -/

theorem pbufByte_writePbuf_self (i : Nat) (b : Byte) (s : State) :
    pbufByte (writePbuf i b s) i = b := by
  simp [pbufByte, writePbuf]

theorem pbufByte_writePbuf_of_ne {i j : Nat} (b : Byte) (s : State) (h : j ≠ i) :
    pbufByte (writePbuf i b s) j = pbufByte s j := by
  simp [pbufByte, writePbuf, Memory.read?_write_of_ne _ _ h]

/-- A read depends on PBUF only. -/
theorem pbufByte_congr {s t : State} (h : t.pbuf = s.pbuf) (i : Nat) : pbufByte t i = pbufByte s i := by
  simp [pbufByte, h]

theorem readPayload_congr {s t : State} (h : t.pbuf = s.pbuf) (n : Nat) :
    readPayload t n = readPayload s n := by
  simp only [readPayload]
  exact List.map_congr_left fun i _ => pbufByte_congr h i

@[simp] theorem readPayload_zero (s : State) : readPayload s 0 = [] := rfl

@[simp] theorem readPayload_length (s : State) (n : Nat) : (readPayload s n).length = n := by
  simp [readPayload]

theorem readPayload_succ (s : State) (n : Nat) :
    readPayload s (n + 1) = readPayload s n ++ [pbufByte s n] := by
  simp [readPayload, List.range_succ]

/-- Writing the next payload byte extends the payload read so far by that byte. -/
theorem readPayload_writePbuf (i : Nat) (b : Byte) (s : State) :
    readPayload (writePbuf i b s) (i + 1) = readPayload s i ++ [b] := by
  rw [readPayload_succ, pbufByte_writePbuf_self]
  congr 1
  simp only [readPayload]
  exact List.map_congr_left fun j hj =>
    pbufByte_writePbuf_of_ne b s (by have := List.mem_range.mp hj; omega)

end Sys2Proof.Machine
end

