-- ==== Sys2Proof/Laws/State.lean ====
section
/-! SUPPORT. One lemma per field per update of State, so that no proof unfolds a record update. -/

namespace Sys2Proof.Machine

/-! ### emit: a record is appended -/

@[simp] theorem emit_cfg (r : Record) (s : State) :
    (emit r s).cfg = s.cfg := rfl
@[simp] theorem emit_st (r : Record) (s : State) :
    (emit r s).st = s.st := rfl
@[simp] theorem emit_seenAa (r : Record) (s : State) :
    (emit r s).seenAa = s.seenAa := rfl
@[simp] theorem emit_cnt (r : Record) (s : State) :
    (emit r s).cnt = s.cnt := rfl
@[simp] theorem emit_fType (r : Record) (s : State) :
    (emit r s).fType = s.fType := rfl
@[simp] theorem emit_fSeq (r : Record) (s : State) :
    (emit r s).fSeq = s.fSeq := rfl
@[simp] theorem emit_fLen (r : Record) (s : State) :
    (emit r s).fLen = s.fLen := rfl
@[simp] theorem emit_fTs (r : Record) (s : State) :
    (emit r s).fTs = s.fTs := rfl
@[simp] theorem emit_fcrc (r : Record) (s : State) :
    (emit r s).fcrc = s.fcrc := rfl
@[simp] theorem emit_crcLo (r : Record) (s : State) :
    (emit r s).crcLo = s.crcLo := rfl
@[simp] theorem emit_closeCause (r : Record) (s : State) :
    (emit r s).closeCause = s.closeCause := rfl
@[simp] theorem emit_gcrc (r : Record) (s : State) :
    (emit r s).gcrc = s.gcrc := rfl
@[simp] theorem emit_pbuf (r : Record) (s : State) :
    (emit r s).pbuf = s.pbuf := rfl
@[simp] theorem emit_input (r : Record) (s : State) :
    (emit r s).input = s.input := rfl
@[simp] theorem emit_output (r : Record) (s : State) :
    (emit r s).output = s.output ++ [r] := rfl

/-! ### raiseStatus: a status ends what the block does (R93) -/

@[simp] theorem raiseStatus_cfg (r : Record) (c : Ctl) (s : State) :
    (raiseStatus r c s).cfg = s.cfg := rfl
@[simp] theorem raiseStatus_st (r : Record) (c : Ctl) (s : State) :
    (raiseStatus r c s).st = c := rfl
@[simp] theorem raiseStatus_seenAa (r : Record) (c : Ctl) (s : State) :
    (raiseStatus r c s).seenAa = false := rfl
@[simp] theorem raiseStatus_cnt (r : Record) (c : Ctl) (s : State) :
    (raiseStatus r c s).cnt = 0 := rfl
@[simp] theorem raiseStatus_fType (r : Record) (c : Ctl) (s : State) :
    (raiseStatus r c s).fType = s.fType := rfl
@[simp] theorem raiseStatus_fSeq (r : Record) (c : Ctl) (s : State) :
    (raiseStatus r c s).fSeq = s.fSeq := rfl
@[simp] theorem raiseStatus_fLen (r : Record) (c : Ctl) (s : State) :
    (raiseStatus r c s).fLen = s.fLen := rfl
@[simp] theorem raiseStatus_fTs (r : Record) (c : Ctl) (s : State) :
    (raiseStatus r c s).fTs = s.fTs := rfl
@[simp] theorem raiseStatus_fcrc (r : Record) (c : Ctl) (s : State) :
    (raiseStatus r c s).fcrc = s.fcrc := rfl
@[simp] theorem raiseStatus_crcLo (r : Record) (c : Ctl) (s : State) :
    (raiseStatus r c s).crcLo = s.crcLo := rfl
@[simp] theorem raiseStatus_closeCause (r : Record) (c : Ctl) (s : State) :
    (raiseStatus r c s).closeCause = s.closeCause := rfl
@[simp] theorem raiseStatus_gcrc (r : Record) (c : Ctl) (s : State) :
    (raiseStatus r c s).gcrc = s.gcrc := rfl
@[simp] theorem raiseStatus_pbuf (r : Record) (c : Ctl) (s : State) :
    (raiseStatus r c s).pbuf = s.pbuf := rfl
@[simp] theorem raiseStatus_input (r : Record) (c : Ctl) (s : State) :
    (raiseStatus r c s).input = s.input := rfl
@[simp] theorem raiseStatus_output (r : Record) (c : Ctl) (s : State) :
    (raiseStatus r c s).output = s.output ++ [r] := rfl

/-! ### closePath: the frame path closes (R97, R98) -/

@[simp] theorem closePath_cfg (k : CloseCause) (r : Record) (s : State) :
    (closePath k r s).cfg = s.cfg := rfl
@[simp] theorem closePath_st (k : CloseCause) (r : Record) (s : State) :
    (closePath k r s).st = .closed := rfl
@[simp] theorem closePath_seenAa (k : CloseCause) (r : Record) (s : State) :
    (closePath k r s).seenAa = false := rfl
@[simp] theorem closePath_cnt (k : CloseCause) (r : Record) (s : State) :
    (closePath k r s).cnt = 0 := rfl
@[simp] theorem closePath_fType (k : CloseCause) (r : Record) (s : State) :
    (closePath k r s).fType = s.fType := rfl
@[simp] theorem closePath_fSeq (k : CloseCause) (r : Record) (s : State) :
    (closePath k r s).fSeq = s.fSeq := rfl
@[simp] theorem closePath_fLen (k : CloseCause) (r : Record) (s : State) :
    (closePath k r s).fLen = s.fLen := rfl
@[simp] theorem closePath_fTs (k : CloseCause) (r : Record) (s : State) :
    (closePath k r s).fTs = s.fTs := rfl
@[simp] theorem closePath_fcrc (k : CloseCause) (r : Record) (s : State) :
    (closePath k r s).fcrc = s.fcrc := rfl
@[simp] theorem closePath_crcLo (k : CloseCause) (r : Record) (s : State) :
    (closePath k r s).crcLo = s.crcLo := rfl
@[simp] theorem closePath_closeCause (k : CloseCause) (r : Record) (s : State) :
    (closePath k r s).closeCause = k := rfl
@[simp] theorem closePath_gcrc (k : CloseCause) (r : Record) (s : State) :
    (closePath k r s).gcrc = s.gcrc := rfl
@[simp] theorem closePath_pbuf (k : CloseCause) (r : Record) (s : State) :
    (closePath k r s).pbuf = s.pbuf := rfl
@[simp] theorem closePath_input (k : CloseCause) (r : Record) (s : State) :
    (closePath k r s).input = s.input := rfl
@[simp] theorem closePath_output (k : CloseCause) (r : Record) (s : State) :
    (closePath k r s).output = s.output ++ [r] := rfl

/-! ### startAttempt: a decode attempt begins (R58) -/

@[simp] theorem startAttempt_cfg (s : State) :
    (startAttempt s).cfg = s.cfg := rfl
@[simp] theorem startAttempt_st (s : State) :
    (startAttempt s).st = .readingHeader := rfl
@[simp] theorem startAttempt_seenAa (s : State) :
    (startAttempt s).seenAa = false := rfl
@[simp] theorem startAttempt_cnt (s : State) :
    (startAttempt s).cnt = 0 := rfl
@[simp] theorem startAttempt_fType (s : State) :
    (startAttempt s).fType = s.fType := rfl
@[simp] theorem startAttempt_fSeq (s : State) :
    (startAttempt s).fSeq = s.fSeq := rfl
@[simp] theorem startAttempt_fLen (s : State) :
    (startAttempt s).fLen = s.fLen := rfl
@[simp] theorem startAttempt_fTs (s : State) :
    (startAttempt s).fTs = s.fTs := rfl
@[simp] theorem startAttempt_fcrc (s : State) :
    (startAttempt s).fcrc = frameSeed := rfl
@[simp] theorem startAttempt_crcLo (s : State) :
    (startAttempt s).crcLo = s.crcLo := rfl
@[simp] theorem startAttempt_closeCause (s : State) :
    (startAttempt s).closeCause = s.closeCause := rfl
@[simp] theorem startAttempt_gcrc (s : State) :
    (startAttempt s).gcrc = s.gcrc := rfl
@[simp] theorem startAttempt_pbuf (s : State) :
    (startAttempt s).pbuf = s.pbuf := rfl
@[simp] theorem startAttempt_input (s : State) :
    (startAttempt s).input = s.input := rfl
@[simp] theorem startAttempt_output (s : State) :
    (startAttempt s).output = s.output := rfl

/-! ### enterReading: a reading state is entered (R16) -/

@[simp] theorem enterReading_cfg (c : Ctl) (s : State) :
    (enterReading c s).cfg = s.cfg := rfl
@[simp] theorem enterReading_st (c : Ctl) (s : State) :
    (enterReading c s).st = c := rfl
@[simp] theorem enterReading_seenAa (c : Ctl) (s : State) :
    (enterReading c s).seenAa = s.seenAa := rfl
@[simp] theorem enterReading_cnt (c : Ctl) (s : State) :
    (enterReading c s).cnt = 0 := rfl
@[simp] theorem enterReading_fType (c : Ctl) (s : State) :
    (enterReading c s).fType = s.fType := rfl
@[simp] theorem enterReading_fSeq (c : Ctl) (s : State) :
    (enterReading c s).fSeq = s.fSeq := rfl
@[simp] theorem enterReading_fLen (c : Ctl) (s : State) :
    (enterReading c s).fLen = s.fLen := rfl
@[simp] theorem enterReading_fTs (c : Ctl) (s : State) :
    (enterReading c s).fTs = s.fTs := rfl
@[simp] theorem enterReading_fcrc (c : Ctl) (s : State) :
    (enterReading c s).fcrc = s.fcrc := rfl
@[simp] theorem enterReading_crcLo (c : Ctl) (s : State) :
    (enterReading c s).crcLo = s.crcLo := rfl
@[simp] theorem enterReading_closeCause (c : Ctl) (s : State) :
    (enterReading c s).closeCause = s.closeCause := rfl
@[simp] theorem enterReading_gcrc (c : Ctl) (s : State) :
    (enterReading c s).gcrc = s.gcrc := rfl
@[simp] theorem enterReading_pbuf (c : Ctl) (s : State) :
    (enterReading c s).pbuf = s.pbuf := rfl
@[simp] theorem enterReading_input (c : Ctl) (s : State) :
    (enterReading c s).input = s.input := rfl
@[simp] theorem enterReading_output (c : Ctl) (s : State) :
    (enterReading c s).output = s.output := rfl

/-! ### countByte: one more byte consumed (R16) -/

@[simp] theorem countByte_cfg (s : State) :
    (countByte s).cfg = s.cfg := rfl
@[simp] theorem countByte_st (s : State) :
    (countByte s).st = s.st := rfl
@[simp] theorem countByte_seenAa (s : State) :
    (countByte s).seenAa = s.seenAa := rfl
@[simp] theorem countByte_cnt (s : State) :
    (countByte s).cnt = s.cnt + 1 := rfl
@[simp] theorem countByte_fType (s : State) :
    (countByte s).fType = s.fType := rfl
@[simp] theorem countByte_fSeq (s : State) :
    (countByte s).fSeq = s.fSeq := rfl
@[simp] theorem countByte_fLen (s : State) :
    (countByte s).fLen = s.fLen := rfl
@[simp] theorem countByte_fTs (s : State) :
    (countByte s).fTs = s.fTs := rfl
@[simp] theorem countByte_fcrc (s : State) :
    (countByte s).fcrc = s.fcrc := rfl
@[simp] theorem countByte_crcLo (s : State) :
    (countByte s).crcLo = s.crcLo := rfl
@[simp] theorem countByte_closeCause (s : State) :
    (countByte s).closeCause = s.closeCause := rfl
@[simp] theorem countByte_gcrc (s : State) :
    (countByte s).gcrc = s.gcrc := rfl
@[simp] theorem countByte_pbuf (s : State) :
    (countByte s).pbuf = s.pbuf := rfl
@[simp] theorem countByte_input (s : State) :
    (countByte s).input = s.input := rfl
@[simp] theorem countByte_output (s : State) :
    (countByte s).output = s.output := rfl

/-! ### feedFrameCrc: a body byte enters the running CRC (R19) -/

@[simp] theorem feedFrameCrc_cfg (b : Byte) (s : State) :
    (feedFrameCrc b s).cfg = s.cfg := rfl
@[simp] theorem feedFrameCrc_st (b : Byte) (s : State) :
    (feedFrameCrc b s).st = s.st := rfl
@[simp] theorem feedFrameCrc_seenAa (b : Byte) (s : State) :
    (feedFrameCrc b s).seenAa = s.seenAa := rfl
@[simp] theorem feedFrameCrc_cnt (b : Byte) (s : State) :
    (feedFrameCrc b s).cnt = s.cnt := rfl
@[simp] theorem feedFrameCrc_fType (b : Byte) (s : State) :
    (feedFrameCrc b s).fType = s.fType := rfl
@[simp] theorem feedFrameCrc_fSeq (b : Byte) (s : State) :
    (feedFrameCrc b s).fSeq = s.fSeq := rfl
@[simp] theorem feedFrameCrc_fLen (b : Byte) (s : State) :
    (feedFrameCrc b s).fLen = s.fLen := rfl
@[simp] theorem feedFrameCrc_fTs (b : Byte) (s : State) :
    (feedFrameCrc b s).fTs = s.fTs := rfl
@[simp] theorem feedFrameCrc_fcrc (b : Byte) (s : State) :
    (feedFrameCrc b s).fcrc = crcStep s.fcrc b := rfl
@[simp] theorem feedFrameCrc_crcLo (b : Byte) (s : State) :
    (feedFrameCrc b s).crcLo = s.crcLo := rfl
@[simp] theorem feedFrameCrc_closeCause (b : Byte) (s : State) :
    (feedFrameCrc b s).closeCause = s.closeCause := rfl
@[simp] theorem feedFrameCrc_gcrc (b : Byte) (s : State) :
    (feedFrameCrc b s).gcrc = s.gcrc := rfl
@[simp] theorem feedFrameCrc_pbuf (b : Byte) (s : State) :
    (feedFrameCrc b s).pbuf = s.pbuf := rfl
@[simp] theorem feedFrameCrc_input (b : Byte) (s : State) :
    (feedFrameCrc b s).input = s.input := rfl
@[simp] theorem feedFrameCrc_output (b : Byte) (s : State) :
    (feedFrameCrc b s).output = s.output := rfl

/-! ### writePbuf: a byte of PBUF is written (R71) -/

@[simp] theorem writePbuf_cfg (i : Nat) (b : Byte) (s : State) :
    (writePbuf i b s).cfg = s.cfg := rfl
@[simp] theorem writePbuf_st (i : Nat) (b : Byte) (s : State) :
    (writePbuf i b s).st = s.st := rfl
@[simp] theorem writePbuf_seenAa (i : Nat) (b : Byte) (s : State) :
    (writePbuf i b s).seenAa = s.seenAa := rfl
@[simp] theorem writePbuf_cnt (i : Nat) (b : Byte) (s : State) :
    (writePbuf i b s).cnt = s.cnt := rfl
@[simp] theorem writePbuf_fType (i : Nat) (b : Byte) (s : State) :
    (writePbuf i b s).fType = s.fType := rfl
@[simp] theorem writePbuf_fSeq (i : Nat) (b : Byte) (s : State) :
    (writePbuf i b s).fSeq = s.fSeq := rfl
@[simp] theorem writePbuf_fLen (i : Nat) (b : Byte) (s : State) :
    (writePbuf i b s).fLen = s.fLen := rfl
@[simp] theorem writePbuf_fTs (i : Nat) (b : Byte) (s : State) :
    (writePbuf i b s).fTs = s.fTs := rfl
@[simp] theorem writePbuf_fcrc (i : Nat) (b : Byte) (s : State) :
    (writePbuf i b s).fcrc = s.fcrc := rfl
@[simp] theorem writePbuf_crcLo (i : Nat) (b : Byte) (s : State) :
    (writePbuf i b s).crcLo = s.crcLo := rfl
@[simp] theorem writePbuf_closeCause (i : Nat) (b : Byte) (s : State) :
    (writePbuf i b s).closeCause = s.closeCause := rfl
@[simp] theorem writePbuf_gcrc (i : Nat) (b : Byte) (s : State) :
    (writePbuf i b s).gcrc = s.gcrc := rfl
@[simp] theorem writePbuf_pbuf (i : Nat) (b : Byte) (s : State) :
    (writePbuf i b s).pbuf = Memory.write s.pbuf i b := rfl
@[simp] theorem writePbuf_input (i : Nat) (b : Byte) (s : State) :
    (writePbuf i b s).input = s.input := rfl
@[simp] theorem writePbuf_output (i : Nat) (b : Byte) (s : State) :
    (writePbuf i b s).output = s.output := rfl

/-! ### resetRegisters: a reset step (R107) -/

@[simp] theorem resetRegisters_cfg (s : State) :
    (resetRegisters s).cfg = s.cfg := rfl
@[simp] theorem resetRegisters_st (s : State) :
    (resetRegisters s).st = .seekingSync := rfl
@[simp] theorem resetRegisters_seenAa (s : State) :
    (resetRegisters s).seenAa = false := rfl
@[simp] theorem resetRegisters_cnt (s : State) :
    (resetRegisters s).cnt = 0 := rfl
@[simp] theorem resetRegisters_fType (s : State) :
    (resetRegisters s).fType = 0 := rfl
@[simp] theorem resetRegisters_fSeq (s : State) :
    (resetRegisters s).fSeq = 0 := rfl
@[simp] theorem resetRegisters_fLen (s : State) :
    (resetRegisters s).fLen = 0 := rfl
@[simp] theorem resetRegisters_fTs (s : State) :
    (resetRegisters s).fTs = 0 := rfl
@[simp] theorem resetRegisters_fcrc (s : State) :
    (resetRegisters s).fcrc = 0xFFFF := rfl
@[simp] theorem resetRegisters_crcLo (s : State) :
    (resetRegisters s).crcLo = 0 := rfl
@[simp] theorem resetRegisters_closeCause (s : State) :
    (resetRegisters s).closeCause = .none := rfl
@[simp] theorem resetRegisters_gcrc (s : State) :
    (resetRegisters s).gcrc = 0xFFFF := rfl
@[simp] theorem resetRegisters_pbuf (s : State) :
    (resetRegisters s).pbuf = s.pbuf := rfl
@[simp] theorem resetRegisters_input (s : State) :
    (resetRegisters s).input = s.input := rfl
@[simp] theorem resetRegisters_output (s : State) :
    (resetRegisters s).output = s.output := rfl

/-! ### presenting: event words are presented -/

@[simp] theorem presenting_cfg (ws : List EventWord) (rest : List Input) (s : State) :
    (presenting ws rest s).cfg = s.cfg := rfl
@[simp] theorem presenting_st (ws : List EventWord) (rest : List Input) (s : State) :
    (presenting ws rest s).st = s.st := rfl
@[simp] theorem presenting_seenAa (ws : List EventWord) (rest : List Input) (s : State) :
    (presenting ws rest s).seenAa = s.seenAa := rfl
@[simp] theorem presenting_cnt (ws : List EventWord) (rest : List Input) (s : State) :
    (presenting ws rest s).cnt = s.cnt := rfl
@[simp] theorem presenting_fType (ws : List EventWord) (rest : List Input) (s : State) :
    (presenting ws rest s).fType = s.fType := rfl
@[simp] theorem presenting_fSeq (ws : List EventWord) (rest : List Input) (s : State) :
    (presenting ws rest s).fSeq = s.fSeq := rfl
@[simp] theorem presenting_fLen (ws : List EventWord) (rest : List Input) (s : State) :
    (presenting ws rest s).fLen = s.fLen := rfl
@[simp] theorem presenting_fTs (ws : List EventWord) (rest : List Input) (s : State) :
    (presenting ws rest s).fTs = s.fTs := rfl
@[simp] theorem presenting_fcrc (ws : List EventWord) (rest : List Input) (s : State) :
    (presenting ws rest s).fcrc = s.fcrc := rfl
@[simp] theorem presenting_crcLo (ws : List EventWord) (rest : List Input) (s : State) :
    (presenting ws rest s).crcLo = s.crcLo := rfl
@[simp] theorem presenting_closeCause (ws : List EventWord) (rest : List Input) (s : State) :
    (presenting ws rest s).closeCause = s.closeCause := rfl
@[simp] theorem presenting_gcrc (ws : List EventWord) (rest : List Input) (s : State) :
    (presenting ws rest s).gcrc = s.gcrc := rfl
@[simp] theorem presenting_pbuf (ws : List EventWord) (rest : List Input) (s : State) :
    (presenting ws rest s).pbuf = s.pbuf := rfl
@[simp] theorem presenting_input (ws : List EventWord) (rest : List Input) (s : State) :
    (presenting ws rest s).input = ws.map Input.event ++ rest := rfl
@[simp] theorem presenting_output (ws : List EventWord) (rest : List Input) (s : State) :
    (presenting ws rest s).output = s.output := rfl

/-! ### placeHeader: a header byte goes to its field (R65); the fields it never touches -/

@[simp] theorem placeHeader_cfg (k : Nat) (b : Byte) (s : State) :
    (placeHeader k b s).cfg = s.cfg := by
  unfold placeHeader; split <;> rfl
@[simp] theorem placeHeader_st (k : Nat) (b : Byte) (s : State) :
    (placeHeader k b s).st = s.st := by
  unfold placeHeader; split <;> rfl
@[simp] theorem placeHeader_seenAa (k : Nat) (b : Byte) (s : State) :
    (placeHeader k b s).seenAa = s.seenAa := by
  unfold placeHeader; split <;> rfl
@[simp] theorem placeHeader_cnt (k : Nat) (b : Byte) (s : State) :
    (placeHeader k b s).cnt = s.cnt := by
  unfold placeHeader; split <;> rfl
@[simp] theorem placeHeader_fcrc (k : Nat) (b : Byte) (s : State) :
    (placeHeader k b s).fcrc = s.fcrc := by
  unfold placeHeader; split <;> rfl
@[simp] theorem placeHeader_crcLo (k : Nat) (b : Byte) (s : State) :
    (placeHeader k b s).crcLo = s.crcLo := by
  unfold placeHeader; split <;> rfl
@[simp] theorem placeHeader_closeCause (k : Nat) (b : Byte) (s : State) :
    (placeHeader k b s).closeCause = s.closeCause := by
  unfold placeHeader; split <;> rfl
@[simp] theorem placeHeader_gcrc (k : Nat) (b : Byte) (s : State) :
    (placeHeader k b s).gcrc = s.gcrc := by
  unfold placeHeader; split <;> rfl
@[simp] theorem placeHeader_pbuf (k : Nat) (b : Byte) (s : State) :
    (placeHeader k b s).pbuf = s.pbuf := by
  unfold placeHeader; split <;> rfl
@[simp] theorem placeHeader_input (k : Nat) (b : Byte) (s : State) :
    (placeHeader k b s).input = s.input := by
  unfold placeHeader; split <;> rfl
@[simp] theorem placeHeader_output (k : Nat) (b : Byte) (s : State) :
    (placeHeader k b s).output = s.output := by
  unfold placeHeader; split <;> rfl

/-! ### State.resetWith: the state right after reset (R13, R107) -/

@[simp] theorem resetWith_cfg (c : Config) : (State.resetWith c).cfg = c := rfl
@[simp] theorem resetWith_st (c : Config) : (State.resetWith c).st = .seekingSync := rfl
@[simp] theorem resetWith_seenAa (c : Config) : (State.resetWith c).seenAa = false := rfl
@[simp] theorem resetWith_cnt (c : Config) : (State.resetWith c).cnt = 0 := rfl
@[simp] theorem resetWith_fType (c : Config) : (State.resetWith c).fType = 0 := rfl
@[simp] theorem resetWith_fSeq (c : Config) : (State.resetWith c).fSeq = 0 := rfl
@[simp] theorem resetWith_fLen (c : Config) : (State.resetWith c).fLen = 0 := rfl
@[simp] theorem resetWith_fTs (c : Config) : (State.resetWith c).fTs = 0 := rfl
@[simp] theorem resetWith_fcrc (c : Config) : (State.resetWith c).fcrc = 0xFFFF := rfl
@[simp] theorem resetWith_crcLo (c : Config) : (State.resetWith c).crcLo = 0 := rfl
@[simp] theorem resetWith_closeCause (c : Config) : (State.resetWith c).closeCause = .none := rfl
@[simp] theorem resetWith_gcrc (c : Config) : (State.resetWith c).gcrc = 0xFFFF := rfl
@[simp] theorem resetWith_pbuf (c : Config) : (State.resetWith c).pbuf = [] := rfl
@[simp] theorem resetWith_input (c : Config) : (State.resetWith c).input = [] := rfl
@[simp] theorem resetWith_output (c : Config) : (State.resetWith c).output = [] := rfl

end Sys2Proof.Machine
end

