-- ==== Sys2Proof/Laws/Operands.lean ====
section
/-! SUPPORT. The header bytes and the fields they make up. -/

namespace Sys2Proof.Machine

theorem byteOf_getLsbD {w : Nat} (v : BitVec w) (j n : Nat) :
    (byteOf v j).getLsbD n = (decide (n < 8) && v.getLsbD (8 * j + n)) := by
  simp [byteOf]

/-- The byte just written reads back. -/
theorem byteOf_setByte_self {w : Nat} (v : BitVec w) (j : Nat) (b : Byte) (h : 8 * j + 8 ≤ w) :
    byteOf (setByte v j b) j = b := by
  apply BitVec.eq_of_getLsbD_eq
  intro n hn
  simp only [byteOf_getLsbD, setByte, BitVec.getLsbD_or, BitVec.getLsbD_and, BitVec.getLsbD_not,
    BitVec.getLsbD_shiftLeft, BitVec.getLsbD_setWidth, BitVec.truncate_eq_setWidth]
  have h255 : (255#8).getLsbD n = true := by
    interval_cases n <;> rfl
  simp [hn, show 8 * j + n < w by omega, show n < w by omega, h255]

/-- Writing one byte leaves the others. -/
theorem byteOf_setByte_of_ne {w : Nat} (v : BitVec w) {i j : Nat} (b : Byte) (h : i ≠ j)
    (hi : 8 * i + 8 ≤ w) : byteOf (setByte v j b) i = byteOf v i := by
  apply BitVec.eq_of_getLsbD_eq
  intro n hn
  simp only [byteOf_getLsbD, setByte, BitVec.getLsbD_or, BitVec.getLsbD_and, BitVec.getLsbD_not,
    BitVec.getLsbD_shiftLeft, BitVec.getLsbD_setWidth, BitVec.truncate_eq_setWidth]
  have hw : 8 * i + n < w := by omega
  rcases Nat.lt_or_ge (8 * i + n) (8 * j) with hlt | hge
  · simp [hn, hw, hlt]
  · have h8 : 8 * i + n - 8 * j ≥ 8 := by omega
    have hb : b.getLsbD (8 * i + n - 8 * j) = false := BitVec.getLsbD_of_ge _ _ h8
    have hf : (255#8).getLsbD (8 * i + n - 8 * j) = false := BitVec.getLsbD_of_ge _ _ h8
    simp [hn, hw, hb, hf]

/-- Two bytes make up a 16-bit value, low byte first (30_encoding.md R46). -/
theorem half_eq_of_bytes (v : Half) : v = byteOf v 1 ++ byteOf v 0 := by
  apply BitVec.eq_of_getLsbD_eq
  intro n hn
  simp only [BitVec.getLsbD_append, byteOf_getLsbD]
  split
  · simp_all
  · have e : 8 * 1 + (n - 8) = n := by omega
    simp [e]; omega

/-- A 16-bit value is determined by its bytes. -/
theorem half_ext {u v : Half} (h0 : byteOf u 0 = byteOf v 0) (h1 : byteOf u 1 = byteOf v 1) : u = v := by
  rw [half_eq_of_bytes u, half_eq_of_bytes v, h0, h1]

/-- Four bytes make up a 32-bit value, low byte first (30_encoding.md R46). -/
theorem quad_eq_of_bytes (v : Quad) : v = byteOf v 3 ++ byteOf v 2 ++ byteOf v 1 ++ byteOf v 0 := by
  apply BitVec.eq_of_getLsbD_eq
  intro n hn
  simp only [BitVec.getLsbD_append, byteOf_getLsbD]
  split
  · simp_all
  · split
    · next h1 h2 =>
      have e : 8 * 1 + (n - 8) = n := by omega
      simp [e]; omega
    · split
      · next h1 h2 h3 =>
        have e : 8 * 2 + (n - 8 - 8) = n := by omega
        simp [e]; omega
      · next h1 h2 h3 =>
        have e : 8 * 3 + (n - 8 - 8 - 8) = n := by omega
        simp [e]; omega

/-- A 32-bit value is determined by its bytes. -/
theorem quad_ext {u v : Quad} (h0 : byteOf u 0 = byteOf v 0) (h1 : byteOf u 1 = byteOf v 1)
    (h2 : byteOf u 2 = byteOf v 2) (h3 : byteOf u 3 = byteOf v 3) : u = v := by
  rw [quad_eq_of_bytes u, quad_eq_of_bytes v, h0, h1, h2, h3]

/-- Writing one byte of a 16-bit value, as the field writes of 42_decoder.md R65 put it. -/
theorem setByte_half (v : Half) (b : Byte) :
    setByte v 0 b = v.extractLsb' 8 8 ++ b ∧ setByte v 1 b = b ++ v.extractLsb' 0 8 := by
  constructor <;>
  · apply half_ext <;>
      (first
        | rw [byteOf_setByte_self _ _ _ (by omega)]
        | rw [byteOf_setByte_of_ne _ _ (by omega) (by omega)]) <;>
      (apply BitVec.eq_of_getLsbD_eq
       intro i hi
       simp only [byteOf_getLsbD, BitVec.getLsbD_append, BitVec.getLsbD_extractLsb']
       simp [hi])

/-- Writing one byte of a 32-bit value, as the field writes of 42_decoder.md R65 put it. -/
theorem setByte_quad (v : Quad) (b : Byte) :
    setByte v 0 b = v.extractLsb' 8 24 ++ b ∧
    setByte v 1 b = v.extractLsb' 16 16 ++ b ++ v.extractLsb' 0 8 ∧
    setByte v 2 b = v.extractLsb' 24 8 ++ b ++ v.extractLsb' 0 16 ∧
    setByte v 3 b = b ++ v.extractLsb' 0 24 := by
  refine ⟨?_, ?_, ?_, ?_⟩ <;>
  · apply quad_ext <;>
      (first
        | rw [byteOf_setByte_self _ _ _ (by omega)]
        | rw [byteOf_setByte_of_ne _ _ (by omega) (by omega)]) <;>
      (apply BitVec.eq_of_getLsbD_eq
       intro i hi
       simp only [byteOf_getLsbD, BitVec.getLsbD_append, BitVec.getLsbD_extractLsb']
       interval_cases i <;> simp)

@[simp] theorem headerBytes_length (t : Byte) (q l : Half) (ts : Quad) :
    (headerBytes t q l ts).length = 9 := rfl

@[simp] theorem storedHeader_length (s : State) : (storedHeader s).length = 9 := rfl

/-- The stored header depends on the header registers only. -/
theorem storedHeader_congr {s t : State} (h1 : t.fType = s.fType) (h2 : t.fSeq = s.fSeq)
    (h3 : t.fLen = s.fLen) (h4 : t.fTs = s.fTs) : storedHeader t = storedHeader s := by
  simp [storedHeader, h1, h2, h3, h4]

/-- Placing header byte `k` sets byte `k` of the stored header and no other (42_decoder.md R65). -/
theorem storedHeader_placeHeader (k : Nat) (b : Byte) (s : State) (hk : k ≤ 8) :
    storedHeader (placeHeader k b s) = (storedHeader s).set k b := by
  have h16 : ∀ (v : Half) (c : Byte), byteOf (setByte v 0 c) 0 = c ∧ byteOf (setByte v 1 c) 1 = c ∧
      byteOf (setByte v 0 c) 1 = byteOf v 1 ∧ byteOf (setByte v 1 c) 0 = byteOf v 0 := fun v c =>
    ⟨byteOf_setByte_self _ _ _ (by omega), byteOf_setByte_self _ _ _ (by omega),
      byteOf_setByte_of_ne _ _ (by omega) (by omega), byteOf_setByte_of_ne _ _ (by omega) (by omega)⟩
  have h32s : ∀ (v : Quad) (c : Byte) (j : Nat), j < 4 → byteOf (setByte v j c) j = c :=
    fun v c j hj => byteOf_setByte_self _ _ _ (by omega)
  have h32n : ∀ (v : Quad) (c : Byte) (i j : Nat), i < 4 → i ≠ j →
      byteOf (setByte v j c) i = byteOf v i :=
    fun v c i j hi hij => byteOf_setByte_of_ne _ _ hij (by omega)
  interval_cases k <;>
    simp [storedHeader, placeHeader, headerBytes, leBytes16, leBytes32, h16, h32s, h32n]

/-- The bytes placed so far, after one more. -/
theorem storedHeader_take_placeHeader (k : Nat) (b : Byte) (s : State) (hk : k ≤ 8) :
    (storedHeader (placeHeader k b s)).take (k + 1) = (storedHeader s).take k ++ [b] := by
  rw [storedHeader_placeHeader k b s hk]
  have hl : k < (storedHeader s).length := by rw [storedHeader_length]; omega
  rw [List.take_add_one, List.take_set_of_le (Nat.le_refl k), List.getElem?_set_self hl]
  rfl

/-- Only the header bytes 3 and 4 write `f_len`. -/
theorem placeHeader_fLen (k : Nat) (b : Byte) (s : State) (h3 : k ≠ 3) (h4 : k ≠ 4) :
    (placeHeader k b s).fLen = s.fLen := by
  unfold placeHeader; split <;> first | rfl | omega

end Sys2Proof.Machine
end

