-- ==== Sys2Proof/Laws/PerInstr.lean ====
section
/-! SUPPORT. The statements made per instruction: one family, RoundTrip, one lemma per constructor. -/

namespace Sys2Proof.Laws.RoundTrip

/-- The word of a well-formed instruction decodes to that instruction, with its operand at every value the
encoding admits (30_encoding.md R37, R38, R41). -/
def Statement (i : Instr) : Prop := WellFormed i = true → decode (encode i) = i

theorem byte (b : Byte) : Statement (.byte b) := by
  intro _
  have h : fits 0xFFFF00#24 0x000000#24 (0x0000#16 ++ b) = true := by
    rw [fits_iff, and_mask_upper]; decide
  rw [encode, decode, if_pos h, dataByte_append]

theorem noData : Statement .noData := fun _ => by decide

theorem eof : Statement .eof := fun _ => by decide

theorem cancel : Statement .cancel := fun _ => by decide

/-- No earlier row of the table fits a word whose operation code the row's does not. -/
theorem fits_false_of_op {mask pattern ev : EventWord} (hmask : mask &&& 0xFF0000#24 = 0xFF0000#24)
    (h : ev &&& 0xFF0000#24 ≠ pattern &&& 0xFF0000#24) : fits mask pattern ev = false := by
  rw [Bool.eq_false_iff, Ne, fits_iff]
  intro he
  apply h
  rw [← he, BitVec.and_assoc, hmask]

theorem genInit (seed : Half) : Statement (.genInit seed) := by
  intro _
  have hop : (0x10#8 ++ seed : EventWord) &&& 0xFF0000#24 = 0x100000#24 := by
    rw [and_mask_op]; decide
  have hf : fits 0xFF0000#24 0x100000#24 (0x10#8 ++ seed) = true := by rw [fits_iff, hop]
  rw [encode, decode,
    fits_false_of_op (by decide) (by rw [hop]; decide), fits_false_of_op (by decide) (by rw [hop]; decide),
    fits_false_of_op (by decide) (by rw [hop]; decide), fits_false_of_op (by decide) (by rw [hop]; decide),
    hf]
  simp [seedField_append]

theorem genByte (b : Byte) : Statement (.genByte b) := by
  intro _
  have hup : (0x1100#16 ++ b : EventWord) &&& 0xFFFF00#24 = 0x110000#24 := by
    rw [and_mask_upper]; decide
  have hop : (0x1100#16 ++ b : EventWord) &&& 0xFF0000#24 = 0x110000#24 := by
    rw [show (0xFF0000#24 : EventWord) = 0xFFFF00#24 &&& 0xFF0000#24 by decide, ← BitVec.and_assoc, hup]
    decide
  have hf : fits 0xFFFF00#24 0x110000#24 (0x1100#16 ++ b) = true := by rw [fits_iff, hup]
  rw [encode, decode,
    fits_false_of_op (by decide) (by rw [hop]; decide), fits_false_of_op (by decide) (by rw [hop]; decide),
    fits_false_of_op (by decide) (by rw [hop]; decide), fits_false_of_op (by decide) (by rw [hop]; decide),
    fits_false_of_op (by decide) (by rw [hop]; decide), hf]
  simp [dataByte_append]

/-- If a row of a byte event fits, the fields R39 names have the row's values. -/
theorem fields_of_fits_upper {h : Half} {w : EventWord} (hf : fits 0xFFFF00#24 (h ++ 0#8) w = true) :
    w.extractLsb' 8 16 = h := by
  rw [fits_iff] at hf
  have he := congrArg (fun v : EventWord => v.extractLsb' 8 16) hf
  rw [eq_upper_append_dataByte w, and_mask_upper] at he
  have key : ∀ (u : Half) (c : Byte), (u ++ c : EventWord).extractLsb' 8 16 = u := by
    intro u c
    apply BitVec.eq_of_getLsbD_eq
    intro i hi
    rw [BitVec.getLsbD_extractLsb', BitVec.getLsbD_append]
    simp [hi]
  simpa only [key] using he

theorem illegal (w : EventWord) : Statement (.illegal w) := by
  intro hw
  have hl : legalWord w = false := by simpa [WellFormed] using hw
  have op8 : ∀ h : Half, w.extractLsb' 8 16 = h →
      w.extractLsb' 16 8 = h.extractLsb' 8 8 ∧ w.extractLsb' 8 8 = h.extractLsb' 0 8 := by
    rintro h rfl
    constructor
    · apply BitVec.eq_of_getLsbD_eq
      intro i hi
      simp [hi, show 8 + i < 16 by omega, show 8 + (8 + i) = 16 + i by omega]
    · apply BitVec.eq_of_getLsbD_eq
      intro i hi
      simp [hi, show i < 16 by omega]
  have opInit : fits 0xFF0000#24 0x100000#24 w = true → w.extractLsb' 16 8 = 0x10#8 := by
    intro hf
    rw [fits_iff] at hf
    have he := congrArg (fun v : EventWord => v.extractLsb' 16 8) hf
    rw [eq_op_append_seedField w, and_mask_op] at he
    have key : ∀ (u : Byte) (c : Half), (u ++ c : EventWord).extractLsb' 16 8 = u := by
      intro u c
      apply BitVec.eq_of_getLsbD_eq
      intro i hi
      rw [BitVec.getLsbD_extractLsb', BitVec.getLsbD_append]
      simp [hi]
    simp only [key] at he
    rw [he]; decide
  have whole : ∀ p : EventWord, fits 0xFFFFFF#24 p w = true → w = p := by
    intro p hf
    rw [fits_iff] at hf
    rw [← hf]
    exact (BitVec.and_allOnes (x := w)).symm
  have n1 : fits 0xFFFF00#24 0x000000#24 w = false := by
    rw [Bool.eq_false_iff]; intro hf
    obtain ⟨a, b⟩ := op8 _ (fields_of_fits_upper (h := 0x0000#16) hf)
    simp [legalWord, a, b] at hl
  have n2 : ∀ p : EventWord, legalWord p = true → fits 0xFFFFFF#24 p w = false := by
    intro p hp
    rw [Bool.eq_false_iff]; intro hf
    rw [whole p hf, hp] at hl
    exact absurd hl (by decide)
  have n3 : fits 0xFF0000#24 0x100000#24 w = false := by
    rw [Bool.eq_false_iff]; intro hf
    simp [legalWord, opInit hf] at hl
  have n4 : fits 0xFFFF00#24 0x110000#24 w = false := by
    rw [Bool.eq_false_iff]; intro hf
    obtain ⟨a, b⟩ := op8 _ (fields_of_fits_upper (h := 0x1100#16) hf)
    simp [legalWord, a, b] at hl
  rw [encode, decode, n1, n2 0x010000#24 (by decide), n2 0x020000#24 (by decide),
    n2 0x030000#24 (by decide), n3, n4]
  simp

end Sys2Proof.Laws.RoundTrip
end

