-- ==== Sys2Proof/Laws/Step.lean ====
section
/-! SUPPORT. What one instruction and one step can do, said once. -/

namespace Sys2Proof.Machine

/-- Everything an instruction can do when it answers a next state: one case per rule of the spec, with its
guard. -/
inductive Move : Instr → State → State → Prop where
  /-- R99 -/
  | ignored {i : Instr} {s : State} : s.st = .closed →
      (∃ b, i = .byte b) ∨ i = .noData ∨ i = .eof ∨ i = .cancel → Move i s s
  /-- R58 -/
  | scan {b : Byte} {s : State} : s.st = .seekingSync → Move (.byte b) s (scanByte b s)
  /-- R59 -/
  | scanNoData {s : State} : s.st = .seekingSync → Move .noData s (scanNoData s)
  /-- R64, a header byte before the last -/
  | headerByte {b : Byte} {s : State} : s.st = .readingHeader → s.cnt.toNat < 8 →
      Move (.byte b) s
        (countByte (placeHeader s.cnt.toNat b (feedFrameCrc b s)))
  /-- R64, the last header byte -/
  | headerLast {b : Byte} {s : State} : s.st = .readingHeader → s.cnt.toNat = 8 →
      Move (.byte b) s (headerComplete (placeHeader 8 b (feedFrameCrc b s)))
  /-- R71, a payload byte before the last -/
  | payloadByte {b : Byte} {s : State} : s.st = .readingPayload → s.cnt.toNat + 1 < s.fLen.toNat →
      s.cnt.toNat < pbufSize s.cfg →
      Move (.byte b) s
        (countByte (feedFrameCrc b (writePbuf s.cnt.toNat b s)))
  /-- R71, the last payload byte -/
  | payloadLast {b : Byte} {s : State} : s.st = .readingPayload → s.cnt.toNat + 1 = s.fLen.toNat →
      s.cnt.toNat < pbufSize s.cfg →
      Move (.byte b) s (enterReading .readingCrc (feedFrameCrc b (writePbuf s.cnt.toNat b s)))
  /-- R73 -/
  | checksumLow {b : Byte} {s : State} : s.st = .readingCrc → s.cnt = 0 →
      Move (.byte b) s { s with crcLo := b, cnt := 1 }
  /-- R74, R75 -/
  | valid {b : Byte} {s : State} : s.st = .readingCrc → s.cnt = 1 →
      receivedChecksum b s = s.fcrc → s.fLen.toNat ≤ pbufSize s.cfg →
      Move (.byte b) s
        (raiseStatus (.frameValid (validFrame (receivedChecksum b s) s)) .seekingSync s)
  /-- R74, R76 -/
  | mismatch {b : Byte} {s : State} : s.st = .readingCrc → s.cnt = 1 →
      receivedChecksum b s ≠ s.fcrc →
      Move (.byte b) s
        (raiseStatus (.checksumMismatch s.fcrc (receivedChecksum b s)) .seekingSync s)
  /-- R70, R72, R78 -/
  | shortRead {p : Phase} {s : State} :
      (s.st = .readingHeader ∧ p = .header) ∨ (s.st = .readingPayload ∧ p = .payload) ∨
        (s.st = .readingCrc ∧ p = .crc) →
      Move .noData s (shortRead p s)
  /-- R97 -/
  | closeEof {s : State} : s.st ≠ .closed →
      Move .eof s (closePath .eof (.sourceClosed (inFrame s)) s)
  /-- R98 -/
  | closeCancel {s : State} : s.st ≠ .closed →
      Move .cancel s (closePath .cancel (.cancelled (inFrame s)) s)
  /-- R52 -/
  | genInit {seed : Half} {s : State} : Move (.genInit seed) s { s with gcrc := seed }
  /-- R53 -/
  | genByte {b : Byte} {s : State} : Move (.genByte b) s { s with gcrc := crcStep s.gcrc b }
  /-- R40 -/
  | illegal {w : EventWord} {s : State} : Move (.illegal w) s (emit (.illegalEvent w) s)

/-- Inversion of `takeHeaderByte`. -/
theorem takeHeaderByte_move {b : Byte} {s t : State} (hst : s.st = .readingHeader)
    (h : takeHeaderByte b s = .next t) : Move (.byte b) s t := by
  simp only [takeHeaderByte, lastHeaderIndex] at h
  by_cases hk : s.cnt.toNat < 8
  · rw [if_pos hk] at h; cases h; exact .headerByte hst hk
  · by_cases h8 : s.cnt.toNat = 8
    · rw [if_neg hk, if_pos h8, h8] at h; cases h; exact .headerLast hst h8
    · rw [if_neg hk, if_neg h8] at h; cases h

/-- Inversion of `takePayloadByte`. -/
theorem takePayloadByte_move {b : Byte} {s t : State} (hst : s.st = .readingPayload)
    (h : takePayloadByte b s = .next t) : Move (.byte b) s t := by
  simp only [takePayloadByte] at h
  split at h
  · cases h
  · next hlen =>
    split at h
    · cases h
    · next hsz =>
      split at h
      · next hlast => cases h; exact .payloadLast hst hlast (by omega)
      · next hmore => cases h; exact .payloadByte hst (by omega) (by omega)

/-- Inversion of `takeChecksumByte`. -/
theorem takeChecksumByte_move {b : Byte} {s t : State} (hst : s.st = .readingCrc)
    (h : takeChecksumByte b s = .next t) : Move (.byte b) s t := by
  simp only [takeChecksumByte] at h
  split at h
  · next h0 => cases h; exact .checksumLow hst h0
  · split at h
    · next h1 =>
      simp only [validate] at h
      split at h
      · next heq =>
        split at h
        · next hfit => cases h; exact .valid hst h1 heq hfit
        · cases h
      · next hne => cases h; exact .mismatch hst h1 hne
    · cases h

/-- Inversion of `exec`: a next state comes from one of the moves. -/
theorem exec_move {i : Instr} {s t : State} (h : exec i s = .next t) : Move i s t := by
  cases i with
  | byte b =>
    simp only [exec, execByte] at h
    split at h
    · next hst => cases h; exact .scan hst
    · next hst => exact takeHeaderByte_move hst h
    · next hst => exact takePayloadByte_move hst h
    · next hst => exact takeChecksumByte_move hst h
    · next hst => cases h; exact .ignored hst (.inl ⟨b, rfl⟩)
  | noData =>
    simp only [exec, execNoData] at h
    split at h
    · next hst => cases h; exact .scanNoData hst
    · next hst => cases h; exact .shortRead (.inl ⟨hst, rfl⟩)
    · next hst => cases h; exact .shortRead (.inr (.inl ⟨hst, rfl⟩))
    · next hst => cases h; exact .shortRead (.inr (.inr ⟨hst, rfl⟩))
    · next hst => cases h; exact .ignored hst (.inr (.inl rfl))
  | eof =>
    simp only [exec, execEof] at h
    split at h
    · next hst => cases h; exact .ignored hst (.inr (.inr (.inl rfl)))
    · next hst => cases h; exact .closeEof hst
  | cancel =>
    simp only [exec, execCancel] at h
    split at h
    · next hst => cases h; exact .ignored hst (.inr (.inr (.inr rfl)))
    · next hst => cases h; exact .closeCancel hst
  | genInit seed => cases h; exact .genInit
  | genByte b => cases h; exact .genByte
  | illegal w => cases h; exact .illegal

/-- Every move is what `exec` answers. -/
theorem move_exec {i : Instr} {s t : State} (h : Move i s t) : exec i s = .next t := by
  cases h with
  | ignored h hi =>
    rcases hi with ⟨b, rfl⟩ | rfl | rfl | rfl
    · simp only [exec, execByte, h]
    · simp only [exec, execNoData, h]
    · simp only [exec, execEof, h]
    · simp only [exec, execCancel, h]
  | scan h => simp only [exec, execByte, h]
  | scanNoData h => simp only [exec, execNoData, h]
  | headerByte h hk => simp only [exec, execByte, h, takeHeaderByte, if_pos hk]
  | headerLast h hk =>
    simp only [exec, execByte, h, takeHeaderByte, hk, if_neg (Nat.lt_irrefl 8), if_true]
  | payloadByte h hk hp =>
    simp only [exec, execByte, h, takePayloadByte, if_neg (Nat.not_le.mpr (Nat.lt_of_succ_lt hk)),
      if_neg (Nat.not_le.mpr hp), if_neg (Nat.ne_of_lt hk)]
  | payloadLast h hk hp =>
    have hlt := Nat.lt_of_lt_of_eq (Nat.lt_succ_self _) hk
    simp only [exec, execByte, h, takePayloadByte, if_neg (Nat.not_le.mpr hlt),
      if_neg (Nat.not_le.mpr hp), if_pos hk]
  | checksumLow h hk => simp only [exec, execByte, h, takeChecksumByte, if_pos hk]
  | @valid b s h hk hr hf =>
    have h0 : ¬ s.cnt = 0 := by rw [hk]; decide
    simp only [exec, execByte, h, takeChecksumByte, if_neg h0, if_pos hk, validate, if_pos hr, if_pos hf]
  | @mismatch b s h hk hr =>
    have h0 : ¬ s.cnt = 0 := by rw [hk]; decide
    simp only [exec, execByte, h, takeChecksumByte, if_neg h0, if_pos hk, validate, if_neg hr]
  | shortRead h => rcases h with ⟨h, rfl⟩ | ⟨h, rfl⟩ | ⟨h, rfl⟩ <;> simp only [exec, execNoData, h]
  | @closeEof s h => cases hst : s.st <;> simp_all [exec, execEof]
  | @closeCancel s h => cases hst : s.st <;> simp_all [exec, execCancel]
  | genInit => rfl
  | genByte => rfl
  | illegal => rfl

/-- `exec` answers a next state exactly by a move. -/
theorem exec_eq_next_iff {i : Instr} {s t : State} : exec i s = .next t ↔ Move i s t :=
  ⟨exec_move, move_exec⟩

/-- No instruction touches what is presented, or the static configuration. -/
theorem exec_input_cfg {i : Instr} {s t : State} (h : exec i s = .next t) :
    t.input = s.input ∧ t.cfg = s.cfg := by
  cases exec_move h <;> simp [scanByte, scanNoData, headerComplete, shortRead] <;>
    (repeat' split) <;> simp

/-! ### What a non-generator event does not read -/

/-- `s` with another generator register, another trace and other inputs presented. -/
def withOutside (g : Half) (o : List Record) (xs : List Input) (s : State) : State :=
  { s with gcrc := g, output := o, input := xs }

theorem placeHeader_withOutside (k : Nat) (b : Byte) (g : Half) (o : List Record) (xs : List Input)
    (s : State) : placeHeader k b (withOutside g o xs s) = withOutside g o xs (placeHeader k b s) := by
  unfold placeHeader; split <;> rfl

/-- The three ways a header ends, by the ceiling and the length alone. -/
theorem headerComplete_cases (s : State) :
    (exceedsCeiling s.cfg s.fLen = true ∧
      ∀ u : State, u.cfg = s.cfg → u.fLen = s.fLen →
        headerComplete u = raiseStatus .oversizedFrame .seekingSync u) ∨
    (exceedsCeiling s.cfg s.fLen = false ∧ s.fLen = 0 ∧
      ∀ u : State, u.cfg = s.cfg → u.fLen = s.fLen → headerComplete u = enterReading .readingCrc u) ∨
    (exceedsCeiling s.cfg s.fLen = false ∧ s.fLen ≠ 0 ∧
      ∀ u : State, u.cfg = s.cfg → u.fLen = s.fLen →
        headerComplete u = enterReading .readingPayload u) := by
  cases hx : exceedsCeiling s.cfg s.fLen
  · by_cases hz : s.fLen = 0
    · exact .inr (.inl ⟨rfl, hz, fun u h1 h2 => by
        simp only [headerComplete, h1, h2, hx, Bool.false_eq_true, if_false, if_pos hz]⟩)
    · exact .inr (.inr ⟨rfl, hz, fun u h1 h2 => by
        simp only [headerComplete, h1, h2, hx, Bool.false_eq_true, if_false, if_neg hz]⟩)
  · exact .inl ⟨rfl, fun u h1 h2 => by simp only [headerComplete, h1, h2, hx, if_true]⟩

/-- An event that is no generator event leaves `gcrc`, appends to the trace a list of records that does not
depend on the trace, and reads neither `gcrc`, nor the trace, nor what is presented after it. -/
theorem exec_reads_no_outside {i : Instr} {s t : State}
    (hi : (∀ seed, i ≠ .genInit seed) ∧ (∀ b, i ≠ .genByte b)) (hex : exec i s = .next t) :
    t.gcrc = s.gcrc ∧ ∃ r, t.output = s.output ++ r ∧
      ∀ g o xs, exec i (withOutside g o xs s) = .next (withOutside g (o ++ r) xs t) := by
  cases exec_move hex with
  | ignored h hi =>
    exact ⟨rfl, [], by simp, fun g o xs => by
      simpa using move_exec (Move.ignored (s := withOutside g o xs s) h hi)⟩
  | @scan b _ h =>
    refine ⟨by unfold scanByte; split <;> simp, [], by unfold scanByte; split <;> simp, fun g o xs => ?_⟩
    rw [move_exec (Move.scan (s := withOutside g o xs s) h), List.append_nil]
    by_cases hc : s.seenAa = true ∧ b = markerSecond
    · have hc' : (withOutside g o xs s).seenAa = true ∧ b = markerSecond := hc
      simp only [scanByte, if_pos hc, if_pos hc']; rfl
    · have hc' : ¬ ((withOutside g o xs s).seenAa = true ∧ b = markerSecond) := hc
      simp only [scanByte, if_neg hc, if_neg hc']; rfl
  | scanNoData h =>
    exact ⟨rfl, [_], rfl, fun g o xs => move_exec (Move.scanNoData (s := withOutside g o xs s) h)⟩
  | @headerByte b _ h hk =>
    refine ⟨by simp, [], by simp, fun g o xs => ?_⟩
    rw [move_exec (Move.headerByte (s := withOutside g o xs s) h hk), List.append_nil]
    exact congrArg (fun u => Host.Outcome.next (countByte u))
      (placeHeader_withOutside s.cnt.toNat b g o xs (feedFrameCrc b s))
  | @headerLast b _ h hk =>
    rcases headerComplete_cases s with ⟨-, e⟩ | ⟨-, -, e⟩ | ⟨-, -, e⟩
    · rw [e (placeHeader 8 b (feedFrameCrc b s)) rfl rfl]
      exact ⟨rfl, [_], rfl, fun g o xs => by
        rw [move_exec (Move.headerLast (s := withOutside g o xs s) h hk),
          e (placeHeader 8 b (feedFrameCrc b (withOutside g o xs s))) rfl rfl]; rfl⟩
    · rw [e (placeHeader 8 b (feedFrameCrc b s)) rfl rfl]
      exact ⟨rfl, [], by simp, fun g o xs => by
        rw [move_exec (Move.headerLast (s := withOutside g o xs s) h hk),
          e (placeHeader 8 b (feedFrameCrc b (withOutside g o xs s))) rfl rfl, List.append_nil]
        rfl⟩
    · rw [e (placeHeader 8 b (feedFrameCrc b s)) rfl rfl]
      exact ⟨rfl, [], by simp, fun g o xs => by
        rw [move_exec (Move.headerLast (s := withOutside g o xs s) h hk),
          e (placeHeader 8 b (feedFrameCrc b (withOutside g o xs s))) rfl rfl, List.append_nil]
        rfl⟩
  | payloadByte h hk hp =>
    exact ⟨rfl, [], by simp, fun g o xs => by
      rw [move_exec (Move.payloadByte (s := withOutside g o xs s) h hk hp), List.append_nil]; rfl⟩
  | payloadLast h hk hp =>
    exact ⟨rfl, [], by simp, fun g o xs => by
      rw [move_exec (Move.payloadLast (s := withOutside g o xs s) h hk hp), List.append_nil]; rfl⟩
  | checksumLow h hk =>
    exact ⟨rfl, [], by simp, fun g o xs => by
      rw [move_exec (Move.checksumLow (s := withOutside g o xs s) h hk), List.append_nil]; rfl⟩
  | valid h hk hr hf =>
    exact ⟨rfl, [_], rfl, fun g o xs => move_exec (Move.valid (s := withOutside g o xs s) h hk hr hf)⟩
  | mismatch h hk hr =>
    exact ⟨rfl, [_], rfl, fun g o xs => move_exec (Move.mismatch (s := withOutside g o xs s) h hk hr)⟩
  | shortRead h =>
    exact ⟨rfl, [_], rfl, fun g o xs => move_exec (Move.shortRead (s := withOutside g o xs s) h)⟩
  | closeEof h =>
    exact ⟨rfl, [_], rfl, fun g o xs => move_exec (Move.closeEof (s := withOutside g o xs s) h)⟩
  | closeCancel h =>
    exact ⟨rfl, [_], rfl, fun g o xs => move_exec (Move.closeCancel (s := withOutside g o xs s) h)⟩
  | genInit => exact absurd rfl (hi.1 _)
  | genByte => exact absurd rfl (hi.2 _)
  | illegal => exact ⟨rfl, [_], rfl, fun g o xs => rfl⟩

/-! ### Steps -/

theorem step_nil {s : State} (h : s.input = []) : step s = .next s := by
  simp [step, h]

theorem step_event {s : State} {w : EventWord} {rest : List Input} (h : s.input = .event w :: rest) :
    step s = exec (decode w) { s with input := rest } := by
  simp [step, h]

theorem step_reset {s : State} {rest : List Input} (h : s.input = .reset :: rest) :
    step s = .next (resetRegisters { s with input := rest }) := by
  simp [step, h]

theorem step_resetWithEvent {s : State} {w : EventWord} {rest : List Input}
    (h : s.input = .resetWithEvent w :: rest) :
    step s = .next (resetRegisters { s with input := rest }) := by
  simp [step, h]

/-- Everything a step can do: wait, run an event, or reset. -/
theorem step_cases {s t : State} (h : step s = .next t) :
    (s.input = [] ∧ t = s) ∨
    (∃ w rest, s.input = .event w :: rest ∧ exec (decode w) { s with input := rest } = .next t) ∨
    (∃ rest, (s.input = .reset :: rest ∨ ∃ w, s.input = .resetWithEvent w :: rest) ∧
      t = resetRegisters { s with input := rest }) := by
  match hin : s.input with
  | [] => rw [step_nil hin] at h; cases h; exact .inl ⟨rfl, rfl⟩
  | .event w :: rest => rw [step_event hin] at h; exact .inr (.inl ⟨w, rest, rfl, h⟩)
  | .reset :: rest => rw [step_reset hin] at h; cases h; exact .inr (.inr ⟨rest, .inl rfl, rfl⟩)
  | .resetWithEvent w :: rest =>
    rw [step_resetWithEvent hin] at h; cases h; exact .inr (.inr ⟨rest, .inr ⟨w, rfl⟩, rfl⟩)

/-- The presented event word is the one the next step runs. -/
theorem step_withFetchWord (s : State) (nbits w : Nat) :
    step (s.withFetchWord nbits w) = exec (decode (wordOfBits nbits w)) s := rfl

/-! ### Runs -/

@[simp] theorem runSteps_zero (s : State) : runSteps 0 s = .next s := rfl

/-- A run goes on from where its first step led. -/
theorem runSteps_succ_of_step {k : Nat} {s t : State} (h : step s = .next t) :
    runSteps (k + 1) s = runSteps k t := by
  simp [runSteps, h]

/-- Runs compose. -/
theorem runSteps_add {j k : Nat} {s t : State} (h : runSteps j s = .next t) :
    runSteps (j + k) s = runSteps k t := by
  induction j generalizing s with
  | zero => cases h; simp
  | succ j ih =>
    rw [show j + 1 + k = (j + k) + 1 by omega]
    match hs : step s with
    | .next u => rw [runSteps_succ_of_step hs] at h ⊢; exact ih h
    | .fault r => simp [runSteps, hs] at h
    | .refused r => simp [runSteps, hs] at h

/-- One step of the host's run, by the outcome of the step. -/
theorem core_run_succ (M : Host.Core) (k : Nat) (s : M.State) :
    (∀ t, M.step s = .next t → M.run (k + 1) s = M.run k t) ∧
    (∀ r, M.step s = .fault r → M.run (k + 1) s = .fault r) ∧
    (∀ r, M.step s = .refused r → M.run (k + 1) s = .refused r) := by
  refine ⟨fun t h => ?_, fun r h => ?_, fun r h => ?_⟩ <;> simp [Host.Core.run, h]

/-- `runSteps` is the host's run of the machine. -/
theorem runSteps_eq_core_run (k : Nat) (s : State) : Host.Core.run Sys2Proof.core k s = runSteps k s := by
  induction k generalizing s with
  | zero => rfl
  | succ k ih =>
    obtain ⟨hn, hf, hr⟩ := core_run_succ Sys2Proof.core k s
    match hs : step s with
    | .next t => exact (hn t hs).trans ((ih t).trans (runSteps_succ_of_step hs).symm)
    | .fault r =>
      have e : runSteps (k + 1) s = .fault r := by simp [runSteps, hs]
      exact (hf r hs).trans e.symm
    | .refused r =>
      have e : runSteps (k + 1) s = .refused r := by simp [runSteps, hs]
      exact (hr r hs).trans e.symm

/-- Presenting `w` before `ws`: the first step runs `w`, with `ws` presented after it. -/
theorem step_presenting (w : EventWord) (ws : List EventWord) (rest : List Input) (s : State) :
    step (presenting (w :: ws) rest s) = exec (decode w) (presenting ws rest s) := rfl

/-- One presented word of a longer run. -/
theorem runSteps_presenting {w : EventWord} {ws : List EventWord} {rest : List Input} {s t : State} {k : Nat}
    (h : exec (decode w) (presenting ws rest s) = .next t) :
    runSteps (k + 1) (presenting (w :: ws) rest s) = runSteps k t :=
  runSteps_succ_of_step h

/-- An instruction leaves what is presented after it presented. -/
theorem exec_presenting {i : Instr} {ws : List EventWord} {rest : List Input} {s t : State}
    (h : exec i (presenting ws rest s) = .next t) : t = presenting ws rest t := by
  have hin := (exec_input_cfg h).1
  simp only [presenting] at hin ⊢
  rw [← hin]

end Sys2Proof.Machine
end

