-- ==== Sys2Proof/Tests/Slice0.lean ====
section
/-! SUPPORT. The model's own tests. Expected values come from spec/: 30_encoding.md R37 to R41,
70_reset_and_hazards.md R107 and the tables of 95_test_vectors.md, whose section each test names. After them,
for every statement with hypotheses, a theorem `witness_<name>` with states and operands that meet them. -/

namespace Sys2Proof.Tests

open Sys2Proof Sys2Proof.Machine

/-! ## Well-formed and ill-formed terms (R39, R40; 95 §3.9) -/

theorem test_wellFormed_refuses_legal_words_as_illegal :
    WellFormed (.illegal 0x0000AA) = false ∧ WellFormed (.illegal 0x010000) = false ∧
    WellFormed (.illegal 0x020000) = false ∧ WellFormed (.illegal 0x030000) = false ∧
    WellFormed (.illegal 0x10ABCD) = false ∧ WellFormed (.illegal 0x110031) = false := by decide

theorem test_wellFormed_accepts :
    WellFormed (.byte 0xFF) = true ∧ WellFormed .noData = true ∧ WellFormed .eof = true ∧
    WellFormed .cancel = true ∧ WellFormed (.genInit 0xFFFF) = true ∧ WellFormed (.genByte 0) = true ∧
    WellFormed (.illegal 0x000100) = true ∧ WellFormed (.illegal 0x010001) = true ∧
    WellFormed (.illegal 0x110100) = true ∧ WellFormed (.illegal 0xFF0000) = true := by decide

/-! ## Decoding, words written out from 30_encoding.md §2: op in bits 23:16, arg in bits 15:0 -/

theorem test_decode_byte : decode 0b00000000_00000000_11000011 = .byte 0xC3 := by decide
theorem test_decode_noData : decode 0b00000001_00000000_00000000 = .noData := by decide
theorem test_decode_eof : decode 0b00000010_00000000_00000000 = .eof := by decide
theorem test_decode_cancel : decode 0b00000011_00000000_00000000 = .cancel := by decide
theorem test_decode_genInit : decode 0b00010000_10101011_11001101 = .genInit 0xABCD := by decide
theorem test_decode_genByte : decode 0b00010001_00000000_00110001 = .genByte 0x31 := by decide

/-- The illegal words of 95 §3.9. -/
theorem test_decode_illegal :
    decode 0x000100 = .illegal 0x000100 ∧ decode 0x010001 = .illegal 0x010001 ∧
    decode 0x020005 = .illegal 0x020005 ∧ decode 0x030001 = .illegal 0x030001 ∧
    decode 0x040000 = .illegal 0x040000 ∧ decode 0x0F0000 = .illegal 0x0F0000 ∧
    decode 0x120000 = .illegal 0x120000 ∧ decode 0xFF0000 = .illegal 0xFF0000 ∧
    decode 0x110100 = .illegal 0x110100 := by decide

theorem test_decodeTableWord :
    decodeTableWord 24 0x10ABCD = some (.genInit 0xABCD) ∧ decodeTableWord 8 0xFFAA = some (.byte 0xAA) ∧
    decodeTableWord 32 0 = none := by decide

/-- The encoder, against the words of 95 §5.3. -/
theorem test_encode :
    encode (.byte 0xAA) = 0x0000AA ∧ encode (.genInit 0xFFFF) = 0x10FFFF ∧
    encode (.genByte 0x39) = 0x110039 ∧ encode .cancel = 0x030000 := by decide

/-! ## CRC unit (95 §2.1, §2.2) -/

theorem test_crcStep :
    crcStep 0xFFFF 0x20 = 0xC592 ∧ crcStep 0xFFFF 0x80 = 0x7078 ∧ crcStep 0 0x01 = 0x1021 ∧
    crcStep 0 0xFF = 0x1EF0 := by decide +kernel

theorem test_crc16_check :
    crc16 [0x31, 0x32, 0x33, 0x34, 0x35, 0x36, 0x37, 0x38, 0x39] = 0x29B1 ∧
    crc16 [0x31, 0x32, 0x33, 0x34, 0x35, 0x36, 0x37, 0x38, 0x39] 0x1D0F = 0xE5CC ∧
    crc16 [0x31, 0x32, 0x33, 0x34, 0x35, 0x36, 0x37, 0x38, 0x39, 0xB1, 0x29] = 0x93F3 := by decide +kernel

/-- The wire bytes of 95 §1.3. -/
theorem test_frame_bytes :
    frameBytes 0x20 123 1000 [0x0A, 0xF6, 0x40, 0xC0] =
      [0xAA, 0x55, 0x20, 0x7B, 0x00, 0x04, 0x00, 0xE8, 0x03, 0x00, 0x00, 0x0A, 0xF6, 0x40, 0xC0, 0x6E, 0x69] := by
  decide +kernel

/-! ## Codec unit (95 §4) -/

theorem test_norm64 :
    norm64 (lane 0x7F).raw = 0x3FF0000000000000 ∧ norm64 (lane 0x40).raw = 0x3FE0204081020408 ∧
    norm64 (lane 0x0A).raw = 0x3FB42850A142850A ∧ norm64 (lane 0x00).raw = 0x0000000000000000 ∧
    norm64 (lane 0xFF).raw = 0xBF80204081020408 ∧ norm64 (lane 0x80).raw = 0xBFF0204081020408 := by
  decide +kernel

theorem test_lane_min : lane 0x80 = ⟨-128, -128 / 127⟩ := by decide +kernel

/-! ## Small states -/

/-- After `AA 55` (95 §3.1). -/
def inHeader : State := { State.reset with st := .readingHeader }

/-- The frame of 95 §1.3 before its last header byte; `fcrc` from the trace there. -/
def lastHeader : State :=
  { inHeader with cnt := 8, fType := 0x20, fSeq := 123, fLen := 4, fTs := 0x0003E8, fcrc := 0x50DD }

/-- The same before its first payload byte. -/
def inPayload : State := { lastHeader with st := .readingPayload, cnt := 0, fcrc := 0x87F5 }

/-- The same before its last payload byte. -/
def lastPayload : State :=
  { inPayload with cnt := 3, fcrc := 0x649C, pbuf := [(0, 0x0A), (1, 0xF6), (2, 0x40)] }

/-- The same before its checksum. -/
def inCrc : State :=
  { lastPayload with
    st := .readingCrc, cnt := 0, fcrc := 0x696E, pbuf := [(0, 0x0A), (1, 0xF6), (2, 0x40), (3, 0xC0)] }

/-- The same before the high checksum byte. -/
def lastCrc : State := { inCrc with cnt := 1, crcLo := 0x6E }

/-- After EOF from reset (95 §3.8). -/
def closedByEof : State := { State.reset with st := .closed, closeCause := .eof }

/-- The record of 95 §1.3. -/
def endToEndFrame : Frame where
  type := 0x20
  sequence := 123
  length := 4
  timestamp := 1000
  payload := [0x0A, 0xF6, 0x40, 0xC0]
  checksum := 0x696E
  elemental := some ⟨⟨10, 10 / 127⟩, ⟨-10, -10 / 127⟩, ⟨64, 64 / 127⟩, ⟨-64, -64 / 127⟩⟩

/-! ## One step each -/

/-- The outcome is this next state. -/
def leadsTo (o : Host.Outcome State Fault Refusal) (t : State) : Bool :=
  match o with
  | .next u => decide (u = t)
  | .fault _ => false
  | .refused _ => false

/-- R107: the reset values. -/
theorem test_reset :
    State.reset.st = .seekingSync ∧ State.reset.seenAa = false ∧ State.reset.cnt = 0 ∧
    State.reset.fcrc = 0xFFFF ∧ State.reset.closeCause = .none ∧ State.reset.gcrc = 0xFFFF := by decide

/-- BYTE outside a frame, one step each: 95 §3.1 `AA` (as the first step after reset) and `55` after it,
§3.8 a byte in CLOSED. -/
theorem test_byte_outside_a_frame :
    leadsTo (step (State.reset.withFetchWord 24 0x0000AA)) { State.reset with seenAa := true } = true ∧
    leadsTo (exec (.byte 0x55) { State.reset with seenAa := true }) inHeader = true ∧
    leadsTo (exec (.byte 0xAA) closedByEof) closedByEof = true := by decide

/-- BYTE in a frame, one step each from 95 §1.3: the first and the last header byte, the last payload byte,
the high checksum byte. -/
theorem test_byte_in_a_frame :
    leadsTo (exec (.byte 0x20) inHeader) { inHeader with cnt := 1, fType := 0x20, fcrc := 0xC592 } = true ∧
    leadsTo (exec (.byte 0x00) lastHeader) inPayload = true ∧
    leadsTo (exec (.byte 0xC0) lastPayload) inCrc = true ∧
    leadsTo (exec (.byte 0x69) lastCrc)
      { lastCrc with st := .seekingSync, cnt := 0, output := [.frameValid endToEndFrame] } = true := by
  decide +kernel

/-- 95 §3.7, `AA 55`, NODATA. -/
theorem test_noData_header :
    leadsTo (exec .noData inHeader) { State.reset with output := [.incompleteFrame .header 0] } = true := by
  decide

/-- 95 §3.1, NODATA. -/
theorem test_noData_seeking :
    leadsTo (exec .noData State.reset) { State.reset with output := [.noFrameAvailable] } = true := by decide

/-- 95 §3.8, EOF from reset. -/
theorem test_eof :
    leadsTo (exec .eof State.reset) { closedByEof with output := [.sourceClosed false] } = true := by decide

/-- 95 §3.8, CANCEL before the last checksum byte: `in_frame` 1. -/
theorem test_cancel :
    leadsTo (exec .cancel lastCrc) { lastCrc with
        st := .closed, closeCause := .cancel, cnt := 0, output := [.cancelled true] } = true := by decide

/-- 95 §2.4. -/
theorem test_genInit :
    leadsTo (exec (.genInit 0x1D0F) closedByEof) { closedByEof with gcrc := 0x1D0F } = true := by decide

/-- 95 §2.4. -/
theorem test_genByte :
    leadsTo (exec (.genByte 0x31) State.reset) { State.reset with gcrc := 0xC782 } = true := by decide +kernel

/-- 95 §2.4 and §3.9: a GEN_BYTE word with upper argument bits. -/
theorem test_illegal :
    leadsTo (step (State.reset.withFetchWord 24 0x110131))
      { State.reset with output := [.illegalEvent 0x110131] } = true := by decide

/-- R107, R108: reset, alone and with an event. -/
theorem test_reset_step :
    leadsTo (step { closedByEof with gcrc := 1, input := [.reset] }) State.reset = true ∧
    leadsTo (step { closedByEof with gcrc := 1, input := [.resetWithEvent 0x10AAAA] }) State.reset = true := by
  decide

/-! ## States that meet the invariant -/

theorem witness_inv_reset : BlockInv State.reset := by
  constructor <;> first | decide | (unfold LengthFits; decide) | (unfold PayloadWritten; decide)

theorem witness_inv_header : BlockInv inHeader := by
  constructor <;> first | decide | (unfold LengthFits; decide) | (unfold PayloadWritten; decide)

theorem witness_inv_lastHeader : BlockInv lastHeader := by
  constructor <;>
    first | decide +kernel | (unfold LengthFits; decide) | (unfold PayloadWritten; decide)

theorem witness_inv_inPayload : BlockInv inPayload := by
  constructor <;>
    first | decide +kernel | (unfold LengthFits; decide) | (unfold PayloadWritten; decide)

theorem witness_inv_lastPayload : BlockInv lastPayload := by
  constructor <;>
    first | decide +kernel | (unfold LengthFits; decide) | (unfold PayloadWritten; decide)

theorem witness_inv_inCrc : BlockInv inCrc := by
  constructor <;>
    first | decide +kernel | (unfold LengthFits; decide) | (unfold PayloadWritten; decide)

theorem witness_inv_lastCrc : BlockInv lastCrc := by
  constructor <;>
    first | decide +kernel | (unfold LengthFits; decide) | (unfold PayloadWritten; decide)

theorem witness_inv_closed : BlockInv closedByEof := by
  constructor <;> first | decide | (unfold LengthFits; decide) | (unfold PayloadWritten; decide)

/-! ## Witnesses for the hypotheses of the statements -/

/-- The step on the high checksum byte 0x69 when it matches. -/
theorem step_valid {s : State} (hst : s.st = .readingCrc) (hk : s.cnt = 1)
    (hr : receivedChecksum 0x69 s = s.fcrc) (hf : s.fLen.toNat ≤ pbufSize s.cfg) :
    ∃ (t : State) (f : Frame), step (s.withFetchWord 24 0x000069) = .next t ∧ t.output = s.output ++ [.frameValid f] ∧
      f.type = s.fType ∧ f.length = s.fLen := by
  refine ⟨raiseStatus (.frameValid (validFrame (receivedChecksum 0x69 s) s)) .seekingSync s,
    validFrame (receivedChecksum 0x69 s) s, ?_, raiseStatus_output _ _ s, rfl, rfl⟩
  rw [step_withFetchWord, show decode (wordOfBits 24 0x000069) = .byte 0x69 by decide]
  exact move_exec (.valid hst hk hr hf)

theorem witness_DecodeAndEncodeAgree :
    WellFormed (.byte 0xFF) = true ∧ WellFormed (.illegal 0x000100) = true := by decide

/-- One word for each clause, at the ends of its ranges. -/
theorem witness_EveryWordDecodesByItsOpAndArg :
    (∃ w : EventWord, w.toNat / 65536 = 0x00 ∧ w.toNat % 65536 / 256 = 0 ∧ w.toNat % 65536 = 0xFF) ∧
    (∃ w : EventWord, w.toNat / 65536 = 0x01 ∧ w.toNat % 65536 = 0) ∧
    (∃ w : EventWord, w.toNat / 65536 = 0x02 ∧ w.toNat % 65536 = 0) ∧
    (∃ w : EventWord, w.toNat / 65536 = 0x03 ∧ w.toNat % 65536 = 0) ∧
    (∃ w : EventWord, w.toNat / 65536 = 0x10 ∧ w.toNat % 65536 = 0xFFFF) ∧
    (∃ w : EventWord, w.toNat / 65536 = 0x11 ∧ w.toNat % 65536 / 256 = 0 ∧ w.toNat % 65536 = 0xFF) ∧
    (∃ w : EventWord, ¬ ((w.toNat / 65536 = 0x00 ∧ w.toNat % 65536 / 256 = 0) ∨
      ((w.toNat / 65536 = 0x01 ∨ w.toNat / 65536 = 0x02 ∨ w.toNat / 65536 = 0x03) ∧
        w.toNat % 65536 = 0) ∨
      w.toNat / 65536 = 0x10 ∨ (w.toNat / 65536 = 0x11 ∧ w.toNat % 65536 / 256 = 0))) :=
  ⟨⟨0x0000FF, by decide⟩, ⟨0x010000, by decide⟩, ⟨0x020000, by decide⟩, ⟨0x030000, by decide⟩,
    ⟨0x10FFFF, by decide⟩, ⟨0x1100FF, by decide⟩, ⟨0x000100, by decide⟩⟩

theorem witness_StepRunsThePresentedEvent :
    WellFormed (.byte 0xAA) = true ∧
    (State.reset.withFetchWord 24 0x0000AA).input = .event (encode (.byte 0xAA)) :: [] := by decide

theorem witness_BlockWaitsWhenNothingIsPresented : State.reset.input = [] := by decide

theorem witness_StepEmitsAtMostOneRecord :
    (∃ t, step (State.reset.withFetchWord 24 0x0000AA) = .next t ∧ t.output = State.reset.output) ∧
    ∃ t, step (State.reset.withFetchWord 24 0x010000) = .next t ∧ t.output = [.noFrameAvailable] :=
  ⟨⟨_, rfl, by decide⟩, ⟨_, rfl, by decide⟩⟩

theorem witness_MaxLenIsStatic : ∃ t, step { closedByEof with input := [.reset] } = .next t := ⟨_, rfl⟩

/-- A count or an index just out of range, in each reading state. -/
theorem witness_CountOrIndexOutOfRangeStops :
    (∃ s : State, s.st = .readingHeader ∧ 8 < s.cnt.toNat) ∧
    (∃ s : State, s.st = .readingPayload ∧ s.fLen.toNat ≤ s.cnt.toNat) ∧
    (∃ s : State, s.st = .readingPayload ∧ s.cnt.toNat < s.fLen.toNat ∧ pbufSize s.cfg ≤ s.cnt.toNat) ∧
    (∃ s : State, s.st = .readingCrc ∧ 1 < s.cnt.toNat) ∧
    (∃ s : State, s.st = .readingCrc ∧ s.cnt = 1 ∧ (0x69 : Byte) ++ s.crcLo = s.fcrc ∧
      pbufSize s.cfg < s.fLen.toNat) :=
  ⟨⟨{ inHeader with cnt := 9 }, by decide⟩, ⟨{ inPayload with cnt := 4 }, by decide⟩,
    ⟨{ inPayload with cfg := ⟨some 0⟩ }, by decide⟩, ⟨{ inCrc with cnt := 2 }, by decide⟩,
    ⟨{ lastCrc with cfg := ⟨some 3⟩ }, by decide⟩⟩

/-- In every control state. -/
theorem witness_InvariantIsKeptByEveryStep :
    (BlockInv State.reset ∧ ∃ t, step State.reset = .next t) ∧
    (BlockInv inHeader ∧ ∃ t, step inHeader = .next t) ∧
    (BlockInv lastPayload ∧ ∃ t, step lastPayload = .next t) ∧
    (BlockInv lastCrc ∧ ∃ t, step lastCrc = .next t) ∧
    (BlockInv closedByEof ∧ ∃ t, step closedByEof = .next t) :=
  ⟨⟨witness_inv_reset, _, rfl⟩, ⟨witness_inv_header, _, rfl⟩, ⟨witness_inv_lastPayload, _, rfl⟩,
    ⟨witness_inv_lastCrc, _, rfl⟩, ⟨witness_inv_closed, _, rfl⟩⟩

theorem witness_NoInputStopsTheBlock : BlockInv lastPayload ∧ BlockInv lastCrc ∧ BlockInv lastHeader :=
  ⟨witness_inv_lastPayload, witness_inv_lastCrc, witness_inv_lastHeader⟩

/-- The starting states of the transitions of R17. -/
theorem witness_ControlTransfersAreExactlyThese :
    (∃ t, exec (.byte 0x55) { State.reset with seenAa := true } = .next t ∧ t.st = .readingHeader) ∧
    (∃ t, exec (.byte 0x00) lastHeader = .next t ∧ t.st = .readingPayload) ∧
    (∃ t, exec (.byte 0x00) { lastHeader with fLen := 0 } = .next t ∧ t.st = .readingCrc) ∧
    (∃ t, exec .noData inHeader = .next t ∧ t.st = .seekingSync) ∧
    (∃ t, exec (.byte 0xC0) lastPayload = .next t ∧ t.st = .readingCrc) ∧
    (∃ t, exec .noData inCrc = .next t ∧ t.st = .seekingSync) ∧
    (∃ t, exec .eof inPayload = .next t ∧ t.st = .closed) :=
  ⟨⟨_, rfl, by decide⟩, ⟨_, rfl, by decide⟩, ⟨_, rfl, by decide⟩, ⟨_, rfl, by decide⟩,
    ⟨_, rfl, by decide⟩, ⟨_, rfl, by decide⟩, ⟨_, rfl, by decide⟩⟩

/-- The lowest and the highest bit. -/
theorem witness_CrcDetectsEverySingleBitFlip : (0 < 8) ∧ (7 < 8) := by decide

theorem witness_GenByteFeedsTheGenerator : (0x01 : Byte) ≠ 0 := by decide

/-- A stream that interleaves frame-path events, GEN_BYTE and an illegal word (95 §5.3). -/
theorem witness_GeneratorComputesTheCrcUnderInterleaving :
    BlockInv inPayload ∧
    (∀ w ∈ ([0x0000AA, 0x110031, 0x000100] : List EventWord), isGenInit w = false) ∧
    isFramePath 0x010000 = true ∧ ∃ t, exec (decode 0x010000) inPayload = .next t := by
  refine ⟨witness_inv_inPayload, fun w hw => ?_, by decide, ?_⟩
  · simp only [List.mem_cons, List.not_mem_nil, or_false] at hw
    rcases hw with rfl | rfl | rfl <;> decide
  rw [show decode 0x010000 = .noData by decide]
  exact ⟨_, rfl⟩

theorem witness_FramePathAndGeneratorDoNotInterfere : BlockInv inPayload := witness_inv_inPayload

/-- Both clauses, and an 0x55 without an 0xAA before it. -/
theorem witness_SeekingByteScansForTheMarker :
    (∃ s : State, s.st = .seekingSync ∧ s.seenAa = true ∧ (0x55 : Byte) = 0x55) ∧
    (∃ s : State, s.st = .seekingSync ∧ ¬ (s.seenAa = true ∧ (0x55 : Byte) = 0x55)) :=
  ⟨⟨{ State.reset with seenAa := true }, by decide⟩, ⟨State.reset, by decide⟩⟩

theorem witness_SeekingNoDataReportsNoFrame :
    State.reset.st = .seekingSync ∧ State.reset.seenAa = false := by decide

/-- A stretch that holds no marker and ends in 0xAA. -/
theorem witness_MarkerIsFoundAtTheFirstPair :
    State.reset.st = .seekingSync ∧ State.reset.seenAa = false ∧
    (∀ i : Nat, ¬ (([0x55, 0xAA] : List Byte)[i]? = some 0xAA ∧
      ([0x55, 0xAA] : List Byte)[i + 1]? = some 0x55)) ∧
    ([0x55, 0xAA] : List Byte).getLast? = some 0xAA := by
  refine ⟨by decide, by decide, fun i => ?_, by decide⟩
  rcases i with _ | _ | i <;> simp

theorem witness_ChangeOfControlStateClearsSeenAaAndCount :
    BlockInv lastHeader ∧ ∃ t, step (lastHeader.withFetchWord 24 0) = .next t ∧ t.st ≠ lastHeader.st :=
  ⟨witness_inv_lastHeader, _, rfl, by decide⟩

/-- The first and the last header byte. -/
theorem witness_HeaderByteGoesToItsField :
    (inHeader.st = .readingHeader ∧ inHeader.cnt.toNat ≤ 8) ∧
    (lastHeader.st = .readingHeader ∧ lastHeader.cnt.toNat ≤ 8) := by decide

/-- The first byte and the one before the last; at the last: a length above the ceiling, a length equal to
it, and a zero length. -/
theorem witness_NinthHeaderByteDecides :
    (∃ s : State, s.st = .readingHeader ∧ s.cnt.toNat < 8 ∧ s.cnt = 0) ∧
    (∃ s : State, s.st = .readingHeader ∧ s.cnt.toNat < 8 ∧ s.cnt = 7) ∧
    (∃ s : State, s.st = .readingHeader ∧ s.cnt.toNat = 8 ∧
      ∃ n, s.cfg.maxLen = some n ∧ n.toNat < s.fLen.toNat) ∧
    (∃ s : State, s.st = .readingHeader ∧ s.cnt.toNat = 8 ∧
      ¬ (∃ n, s.cfg.maxLen = some n ∧ n.toNat < s.fLen.toNat) ∧ s.fLen ≠ 0) ∧
    (∃ s : State, s.st = .readingHeader ∧ s.cnt.toNat = 8 ∧ s.fLen = 0) := by
  refine ⟨⟨inHeader, by decide⟩, ⟨{ inHeader with cnt := 7 }, by decide⟩,
    ⟨{ lastHeader with cfg := ⟨some 3⟩ }, by decide, by decide, 3, by decide⟩,
    ⟨{ lastHeader with cfg := ⟨some 4⟩ }, by decide, by decide, ?_, by decide⟩,
    ⟨{ lastHeader with fLen := 0 }, by decide⟩⟩
  rintro ⟨n, hn, hlt⟩
  cases hn
  exact absurd hlt (by decide)

/-- One above the ceiling. -/
theorem witness_OversizedFrameIsNotSkipped :
    ∃ s : State, s.st = .readingHeader ∧ s.cnt = 8 ∧ s.cfg.maxLen = some 3 ∧
      (3 : Half).toNat < s.fLen.toNat :=
  ⟨{ lastHeader with cfg := ⟨some 3⟩ }, by decide⟩

/-- The first payload byte and the last one, with a PBUF of exactly the frame's length. -/
theorem witness_PayloadByteIsStored :
    (inPayload.st = .readingPayload ∧ inPayload.cnt.toNat < inPayload.fLen.toNat ∧
      inPayload.fLen.toNat ≤ pbufSize inPayload.cfg) ∧
    (∃ s : State, s.st = .readingPayload ∧ s.cnt.toNat + 1 = s.fLen.toNat ∧
      s.fLen.toNat ≤ pbufSize s.cfg ∧ pbufSize s.cfg = s.fLen.toNat) :=
  ⟨by decide, { lastPayload with cfg := ⟨some 4⟩ }, by decide⟩

theorem witness_LowChecksumByteIsKept : inCrc.st = .readingCrc ∧ inCrc.cnt = 0 := by decide

/-- A matching and a differing checksum. -/
theorem witness_HighChecksumByteDecides :
    (lastCrc.st = .readingCrc ∧ lastCrc.cnt = 1 ∧
      (0x69 : Byte).toNat * 256 + lastCrc.crcLo.toNat = lastCrc.fcrc.toNat ∧
      lastCrc.fLen.toNat ≤ pbufSize lastCrc.cfg) ∧
    (0x6A : Byte).toNat * 256 + lastCrc.crcLo.toNat ≠ lastCrc.fcrc.toNat := by decide

theorem witness_NoDataInAFrameIsAShortRead :
    (inHeader.st = .readingHeader ∧ BlockInv inHeader) ∧
    (lastPayload.st = .readingPayload ∧ BlockInv lastPayload) ∧
    (lastCrc.st = .readingCrc ∧ BlockInv lastCrc) :=
  ⟨⟨by decide, witness_inv_header⟩, ⟨by decide, witness_inv_lastPayload⟩, ⟨by decide, witness_inv_lastCrc⟩⟩

/-- An attempt that goes on, and one that ends. -/
theorem witness_AttemptEndsWithExactlyOneOutcome :
    (inFrame inHeader = true ∧ ∃ t, step (inHeader.withFetchWord 24 0x0000AA) = .next t ∧ inFrame t = true) ∧
    (inFrame lastCrc = true ∧ ∃ t, step (lastCrc.withFetchWord 24 0x000069) = .next t ∧ inFrame t = false) :=
  ⟨⟨by decide, _, rfl, by decide⟩, ⟨by decide, _, rfl, by decide⟩⟩

/-- A valid record with an `elemental` field. -/
theorem witness_EveryValidRecordIsSound :
    BlockInv lastCrc ∧
    ∃ (t : State) (f : Frame), step (lastCrc.withFetchWord 24 0x000069) = .next t ∧ t.output = lastCrc.output ++ [.frameValid f] ∧
      f.type = 0x20 ∧ f.length = 4 := by
  obtain ⟨t, f, h⟩ := step_valid (s := lastCrc) rfl rfl (by decide +kernel) (by decide +kernel)
  exact ⟨witness_inv_lastCrc, t, f, h⟩

/-- A payload as long as the ceiling. -/
theorem witness_EveryFrameDecodesAsSent :
    ∃ s : State, s.st = .seekingSync ∧ ([1, 2, 3, 4, 5] : List Byte).length ≤ 65535 ∧
      s.cfg.maxLen = some 5 ∧ ∀ n, s.cfg.maxLen = some n → ([1, 2, 3, 4, 5] : List Byte).length ≤ n.toNat := by
  refine ⟨State.resetWith ⟨some 5⟩, by decide, by decide, by decide, ?_⟩
  rintro n hn
  cases hn
  decide

/-- The frames of 95 §3.2: the corrupted one's checksum is not the one sent. -/
theorem witness_FrameAfterAChecksumMismatchIsRecovered :
    State.reset.st = .seekingSync ∧ ([1, 3, 3, 4] : List Byte).length ≤ 65535 ∧
    (∀ n, State.reset.cfg.maxLen = some n → ([1, 3, 3, 4] : List Byte).length ≤ n.toNat) ∧
    (0x6F5D : Half) ≠
      crc16 (bodyBytes 0x20 1 (BitVec.ofNat 16 ([1, 3, 3, 4] : List Byte).length) 50 [1, 3, 3, 4]) 0xFFFF := by
  refine ⟨by decide, by decide, fun n hn => ?_, by decide +kernel⟩
  cases hn

/-- Noise that ends in 0xAA, before a frame. -/
theorem witness_FrameAfterNoiseIsRecovered :
    State.reset.st = .seekingSync ∧ State.reset.seenAa = false ∧
    (∀ i : Nat, ¬ (([0x13, 0xAA] : List Byte)[i]? = some 0xAA ∧
      ([0x13, 0xAA] : List Byte)[i + 1]? = some 0x55)) ∧
    ([10] : List Byte).length ≤ 65535 ∧
    (∀ n, State.reset.cfg.maxLen = some n → ([10] : List Byte).length ≤ n.toNat) := by
  refine ⟨by decide, by decide, fun i => ?_, by decide, fun n hn => ?_⟩
  · rcases i with _ | _ | i <;> simp
  · cases hn

/-- The frame of 95 §1.3 with another type before its high checksum byte. -/
def lastCrcOfOtherType : State := { lastCrc with fType := 0x21 }

/-- A valid record with and one without an `elemental` field. -/
theorem witness_ElementalIsPresentExactlyForTheBusFrame :
    (∃ (t : State) (f : Frame), step (lastCrc.withFetchWord 24 0x000069) = .next t ∧
      t.output = lastCrc.output ++ [.frameValid f] ∧ f.type = 0x20 ∧ f.length = 4) ∧
    (∃ (t : State) (f : Frame), step (lastCrcOfOtherType.withFetchWord 24 0x000069) = .next t ∧
      t.output = lastCrcOfOtherType.output ++ [.frameValid f] ∧ ¬ (f.type = 0x20 ∧ f.length = 4)) := by
  obtain ⟨t, f, h⟩ := step_valid (s := lastCrc) rfl rfl (by decide +kernel) (by decide +kernel)
  obtain ⟨u, g, hu, ho, ht, -⟩ := step_valid (s := lastCrcOfOtherType) rfl rfl (by decide +kernel) (by decide +kernel)
  refine ⟨⟨t, f, h⟩, u, g, hu, ho, ?_⟩
  rintro ⟨h20, -⟩
  rw [ht] at h20
  exact absurd h20 (by decide)

theorem witness_ElementalLanesAreSignedBytesOver127 : lastCrc.fType = 0x20 ∧ lastCrc.fLen = 4 := by decide

/-- The two ends of the raw range and the values next to zero. -/
theorem witness_Binary64FormIsTheNearest :
    (lane 0x80).raw ≠ 0 ∧ (lane 0x7F).raw ≠ 0 ∧ (lane 0x01).raw ≠ 0 ∧ (lane 0xFF).raw ≠ 0 := by decide

/-- A word of a legal operation with a bad argument, and one of a reserved operation. -/
theorem witness_IllegalWordOnlyReports :
    (State.reset.withFetchWord 24 0x010001).input = [.event 0x010001] ∧ legalWord 0x010001 = false ∧
    (State.reset.withFetchWord 24 0x040000).input = [.event 0x040000] ∧
    (0x040000 : EventWord).toNat / 65536 ∉ [0x00, 0x01, 0x02, 0x03, 0x10, 0x11] := by decide

/-- Outside and inside a frame. -/
theorem witness_EofClosesTheFramePath : State.reset.st ≠ .closed ∧ lastCrc.st ≠ .closed := by decide

/-- Outside and inside a frame. -/
theorem witness_CancelClosesTheFramePath : State.reset.st ≠ .closed ∧ inPayload.st ≠ .closed := by decide

theorem witness_ClosedAbsorbsFramePathEvents :
    closedByEof.st = .closed ∧
    ∃ t, step { closedByEof with input := [.reset] } = .next t ∧ t.st ≠ .closed :=
  ⟨by decide, _, rfl, by decide⟩

/-- A step that emits each kind of record. -/
theorem witness_EmittedRecordFixesTheControlState :
    (∃ (t : State) (f : Frame), step (lastCrc.withFetchWord 24 0x000069) = .next t ∧ t.output = [.frameValid f]) ∧
    (∃ t, step (lastPayload.withFetchWord 24 0x010000) = .next t ∧
      t.output = [.incompleteFrame .payload 3]) ∧
    (∃ t, step (lastCrc.withFetchWord 24 0x00006A) = .next t ∧
      t.output = [.checksumMismatch 0x696E 0x6A6E]) ∧
    (∃ t, step ({ lastHeader with cfg := ⟨some 3⟩ }.withFetchWord 24 0x000000) = .next t ∧
      t.output = [.oversizedFrame]) ∧
    (∃ t, step (State.reset.withFetchWord 24 0x010000) = .next t ∧ t.output = [.noFrameAvailable]) ∧
    (∃ t, step (inHeader.withFetchWord 24 0x020000) = .next t ∧ t.output = [.sourceClosed true]) ∧
    (∃ t, step (State.reset.withFetchWord 24 0x030000) = .next t ∧ t.output = [.cancelled false]) ∧
    (∃ t, step (inHeader.withFetchWord 24 0x040000) = .next t ∧ t.output = [.illegalEvent 0x040000]) :=
  ⟨step_valid (s := lastCrc) rfl rfl (by decide +kernel) (by decide +kernel) |>.imp fun t h => h.imp fun f h => ⟨h.1, h.2.1⟩,
    ⟨_, rfl, by decide⟩, ⟨_, rfl, by decide⟩, ⟨_, rfl, by decide⟩, ⟨_, rfl, by decide⟩, ⟨_, rfl, by decide⟩, ⟨_, rfl, by decide⟩, ⟨_, rfl, by decide⟩⟩

/-- A cause written by EOF, by CANCEL and by reset, and a step that leaves it NONE. -/
theorem witness_CloseCauseIsWrittenOnlyAtTheEnd :
    BlockInv inHeader ∧ BlockInv closedByEof ∧
    (∃ t, step (inHeader.withFetchWord 24 0x020000) = .next t ∧ t.closeCause ≠ inHeader.closeCause) ∧
    (∃ t, step (inHeader.withFetchWord 24 0x030000) = .next t ∧ t.closeCause ≠ inHeader.closeCause) ∧
    (∃ t, step { closedByEof with input := [.reset] } = .next t ∧ t.closeCause ≠ closedByEof.closeCause) ∧
    (∃ t, step inHeader = .next t ∧ t.closeCause = .none) :=
  ⟨witness_inv_header, witness_inv_closed, ⟨_, rfl, by decide⟩, ⟨_, rfl, by decide⟩, ⟨_, rfl, by decide⟩,
    ⟨_, rfl, by decide⟩⟩

/-- Each instruction but BYTE, in a reading state. -/
theorem witness_EventsThatStoreNothingLeaveTheFrame :
    (∃ t, exec .noData inPayload = .next t) ∧ (∃ t, exec .eof inPayload = .next t) ∧
    (∃ t, exec .cancel inPayload = .next t) ∧ (∃ t, exec (.genInit 1) inPayload = .next t) ∧
    (∃ t, exec (.genByte 1) inPayload = .next t) ∧ (∃ t, exec (.illegal 0x040000) inPayload = .next t) ∧
    (∀ b, Instr.noData ≠ .byte b ∧ Instr.eof ≠ .byte b ∧ Instr.cancel ≠ .byte b ∧
      Instr.genInit 1 ≠ .byte b ∧ Instr.genByte 1 ≠ .byte b ∧ Instr.illegal 0x040000 ≠ .byte b) :=
  ⟨⟨_, rfl⟩, ⟨_, rfl⟩, ⟨_, rfl⟩, ⟨_, rfl⟩, ⟨_, rfl⟩, ⟨_, rfl⟩,
    fun _ => ⟨nofun, nofun, nofun, nofun, nofun, nofun⟩⟩

/-- BYTE in each control state. -/
theorem witness_ByteLeavesTheRest :
    (∃ t, exec (.byte 0xAA) State.reset = .next t ∧ t.st = .seekingSync) ∧
    (∃ t, exec (.byte 0xAA) lastHeader = .next t) ∧
    (∃ t, exec (.byte 0xAA) lastPayload = .next t) ∧
    (∃ t, exec (.byte 0xAA) inCrc = .next t) ∧
    (∃ t, exec (.byte 0xAA) lastCrc = .next t) ∧
    (∃ t, exec (.byte 0xAA) closedByEof = .next t) :=
  ⟨⟨_, rfl, by decide⟩, ⟨_, rfl⟩, ⟨_, rfl⟩, ⟨_, rfl⟩, ⟨_, rfl⟩, ⟨_, rfl⟩⟩

theorem witness_PbufChangesOnlyAtTheCountInThePayload :
    ∃ t, step (lastPayload.withFetchWord 24 0x0000C0) = .next t ∧ t.pbuf = inCrc.pbuf :=
  ⟨_, rfl, by decide⟩

theorem witness_ResetStepWritesTheResetValues :
    ({ lastCrc with input := [.reset] } : State).input = .reset :: [] := by decide

theorem witness_ResetIsTheOnlyWayOutOfClosed :
    (∃ s : State, s.st = .readingPayload ∧ s.input = [.reset]) ∧
    (∃ s : State, s.st = .closed ∧ s.input = [.resetWithEvent 0x0000AA]) ∧
    (closedByEof.st = .closed ∧
      ∃ t, step { closedByEof with input := [.reset] } = .next t ∧ t.st ≠ .closed) :=
  ⟨⟨{ inPayload with input := [.reset] }, by decide⟩,
    ⟨{ closedByEof with input := [.resetWithEvent 0x0000AA] }, by decide⟩, ⟨by decide, _, rfl, by decide⟩⟩

end Sys2Proof.Tests
end

/-! ## `close_cause` (R21)

Which word each event is, then what an instruction and a step can do to `close_cause`. -/

namespace Sys2Proof

/-- A row whose mask keeps the whole word fits only its own pattern. -/
theorem eq_of_fits_whole {p w : EventWord} (h : fits 0xFFFFFF#24 p w = true) : w = p :=
  (BitVec.and_allOnes (x := w)).symm.trans ((fits_iff _ _ _).mp h)

/-- The row of GEN_INIT fits only words whose operation code is its own. -/
theorem op_of_fits_genInit {w : EventWord} (h : fits 0xFF0000#24 0x100000#24 w = true) :
    w.extractLsb' 16 8 = 0x10#8 := by
  rw [fits_iff] at h
  have hop : (w &&& 0xFF0000#24).extractLsb' 16 8 = w.extractLsb' 16 8 := by
    rw [BitVec.extractLsb'_and]; exact BitVec.and_allOnes
  rw [← hop, h]; decide

/-- Every word is the word of the instruction it decodes to (30_encoding.md R37 to R41). -/
theorem encode_decode (w : EventWord) : encode (decode w) = w := by
  unfold decode
  split_ifs with hByte hNoData hEof hCancel hInit hGenByte
  · have h := Laws.RoundTrip.fields_of_fits_upper (h := 0x0000#16) hByte
    exact (h ▸ eq_upper_append_dataByte w).symm
  · exact (eq_of_fits_whole hNoData).symm
  · exact (eq_of_fits_whole hEof).symm
  · exact (eq_of_fits_whole hCancel).symm
  · exact (op_of_fits_genInit hInit ▸ eq_op_append_seedField w).symm
  · have h := Laws.RoundTrip.fields_of_fits_upper (h := 0x1100#16) hGenByte
    exact (h ▸ eq_upper_append_dataByte w).symm
  · rfl

theorem eq_encode_of_decode {w : EventWord} {i : Instr} (h : decode w = i) : w = encode i :=
  h ▸ (encode_decode w).symm

end Sys2Proof

namespace Sys2Proof.Machine

/-- Everything an instruction can do to `close_cause` and to being CLOSED: EOF and CANCEL close an open
frame path and write their cause (R97, R98); every other answer keeps both. -/
theorem exec_closeCause_cases {i : Instr} {s t : State} (h : exec i s = .next t) :
    (i = .eof ∧ s.st ≠ .closed ∧ t.st = .closed ∧ t.closeCause = .eof) ∨
    (i = .cancel ∧ s.st ≠ .closed ∧ t.st = .closed ∧ t.closeCause = .cancel) ∨
    ((t.st = .closed ↔ s.st = .closed) ∧ t.closeCause = s.closeCause) := by
  cases exec_move h with
  | closeEof hst => exact .inl ⟨rfl, hst, rfl, rfl⟩
  | closeCancel hst => exact .inr (.inl ⟨rfl, hst, rfl, rfl⟩)
  | scan hst => exact .inr (.inr (by unfold scanByte; split <;> simp [hst]))
  | @headerLast b _ hst _ =>
    refine .inr (.inr ?_)
    rcases headerComplete_cases (placeHeader 8 b (feedFrameCrc b s)) with
      ⟨-, e⟩ | ⟨-, -, e⟩ | ⟨-, -, e⟩ <;> simp [e _ rfl rfl, hst]
  | shortRead hst =>
    refine .inr (.inr ?_)
    rcases hst with ⟨hst, -⟩ | ⟨hst, -⟩ | ⟨hst, -⟩ <;> simp [shortRead, hst]
  | payloadLast hst | valid hst | mismatch hst => exact .inr (.inr (by simp [hst]))
  | ignored | scanNoData | headerByte | payloadByte | checksumLow | genInit | genByte | illegal =>
    exact .inr (.inr (by simp [scanNoData]))

/-- Everything a step can do to `close_cause` and to being CLOSED: the words of EOF and CANCEL close an open
frame path, reset reopens it and clears the cause, and every other step keeps both (R21). -/
theorem step_closeCause_cases {s t : State} (h : step s = .next t) :
    (∃ rest, s.input = .event 0x020000 :: rest ∧ s.st ≠ .closed ∧ t.st = .closed ∧ t.closeCause = .eof) ∨
    (∃ rest, s.input = .event 0x030000 :: rest ∧ s.st ≠ .closed ∧ t.st = .closed ∧
      t.closeCause = .cancel) ∨
    (∃ rest, (s.input = .reset :: rest ∨ ∃ w, s.input = .resetWithEvent w :: rest) ∧
      t.st = .seekingSync ∧ t.closeCause = .none) ∨
    ((t.st = .closed ↔ s.st = .closed) ∧ t.closeCause = s.closeCause) := by
  obtain ⟨-, rfl⟩ | ⟨w, rest, hin, hex⟩ | ⟨rest, hin, rfl⟩ := step_cases h
  · exact .inr (.inr (.inr ⟨Iff.rfl, rfl⟩))
  · obtain ⟨hi, hclose⟩ | ⟨hi, hclose⟩ | hkeep := exec_closeCause_cases hex
    · have hw : w = 0x020000 := eq_encode_of_decode hi
      exact .inl ⟨rest, hw ▸ hin, hclose⟩
    · have hw : w = 0x030000 := eq_encode_of_decode hi
      exact .inr (.inl ⟨rest, hw ▸ hin, hclose⟩)
    · exact .inr (.inr (.inr hkeep))
  · exact .inr (.inr (.inl ⟨rest, hin, rfl, rfl⟩))

/-- Settles O48: by what a step can do to `close_cause`; where a step keeps it, CLOSED has a cause because
the state before has one (R27(f)). -/
theorem closeCauseIsWrittenOnlyAtTheEnd : Obligations.CloseCauseIsWrittenOnlyAtTheEnd := by
  refine ⟨rfl, rfl, rfl, fun s t hinv hstep => ?_⟩
  obtain ⟨rest, hin, hopen, -, hcause⟩ | ⟨rest, hin, hopen, -, hcause⟩ | ⟨rest, hin, hst, hcause⟩ |
    ⟨hst, hcause⟩ := step_closeCause_cases hstep
  · exact ⟨by simp [hcause], fun _ => .inl ⟨rest, hin, hopen, hcause⟩⟩
  · exact ⟨by simp [hcause], fun _ => .inr (.inl ⟨rest, hin, hopen, hcause⟩)⟩
  · exact ⟨by simp [hst], fun _ => .inr (.inr ⟨rest, hin, hcause⟩)⟩
  · refine ⟨fun hnone hclosed => ?_, fun hchanged => absurd hcause hchanged⟩
    exact hinv.closedCause.mp (hst.mp hclosed) (hcause ▸ hnone)

end Sys2Proof.Machine

/-! ## Words read as numbers (R37 to R40)

The words of the legal rows and the fields of any word, as numbers; from them, which words are legal and
what every word decodes to. -/

namespace Sys2Proof

/-- A well-formed instruction's word decodes to it: the per-instruction round trips, as one lemma. -/
theorem decode_encode {i : Instr} (h : WellFormed i = true) : decode (encode i) = i := by
  cases i with
  | byte b => exact Laws.RoundTrip.byte b h
  | noData => exact Laws.RoundTrip.noData h
  | eof => exact Laws.RoundTrip.eof h
  | cancel => exact Laws.RoundTrip.cancel h
  | genInit seed => exact Laws.RoundTrip.genInit seed h
  | genByte b => exact Laws.RoundTrip.genByte b h
  | illegal w => exact Laws.RoundTrip.illegal w h

/-- A word that is, as a number, the word of a well-formed instruction decodes to that instruction. -/
theorem decode_eq_of_toNat {w : EventWord} {i : Instr} (hi : WellFormed i = true)
    (h : w.toNat = (encode i).toNat) : decode w = i :=
  BitVec.eq_of_toNat_eq h ▸ decode_encode hi

theorem encode_byte_toNat (b : Byte) : (encode (.byte b)).toNat = b.toNat := by
  rw [encode, BitVec.toNat_append, ← Nat.shiftLeft_add_eq_or_of_lt b.isLt]
  simp

theorem encode_genInit_toNat (seed : Half) : (encode (.genInit seed)).toNat = 0x100000 + seed.toNat := by
  rw [encode, BitVec.toNat_append, ← Nat.shiftLeft_add_eq_or_of_lt seed.isLt]
  rfl

theorem encode_genByte_toNat (b : Byte) : (encode (.genByte b)).toNat = 0x110000 + b.toNat := by
  rw [encode, BitVec.toNat_append, ← Nat.shiftLeft_add_eq_or_of_lt b.isLt]
  rfl

/-- The operation code `ev[23:16]` as a number. -/
theorem opField_toNat (w : EventWord) : (w.extractLsb' 16 8).toNat = w.toNat / 65536 := by
  have hw := w.isLt
  rw [BitVec.extractLsb'_toNat, Nat.shiftRight_eq_div_pow]
  omega

/-- The argument `ev[15:0]` as a number. -/
theorem argField_toNat (w : EventWord) : (w.extractLsb' 0 16).toNat = w.toNat % 65536 := by
  simp

/-- The upper argument byte `ev[15:8]` as a number. -/
theorem argHighField_toNat (w : EventWord) : (w.extractLsb' 8 8).toNat = w.toNat % 65536 / 256 := by
  rw [BitVec.extractLsb'_toNat, Nat.shiftRight_eq_div_pow]
  omega

/-- The legal words, by their operation code and argument as numbers (R39). -/
theorem legalWord_iff_toNat (w : EventWord) :
    legalWord w = true ↔
      (w.toNat / 65536 = 0x00 ∧ w.toNat % 65536 / 256 = 0) ∨
      ((w.toNat / 65536 = 0x01 ∨ w.toNat / 65536 = 0x02 ∨ w.toNat / 65536 = 0x03) ∧
        w.toNat % 65536 = 0) ∨
      w.toNat / 65536 = 0x10 ∨ (w.toNat / 65536 = 0x11 ∧ w.toNat % 65536 / 256 = 0) := by
  simp only [legalWord, Bool.or_eq_true, Bool.and_eq_true, beq_iff_eq, ← BitVec.toNat_inj, opField_toNat,
    argField_toNat, argHighField_toNat, BitVec.toNat_ofNat, Nat.reducePow, Nat.reduceMod, or_assoc]

/-- A word that is not legal decodes to ILLEGAL (R40). -/
theorem decode_of_not_legalWord {w : EventWord} (h : legalWord w = false) : decode w = .illegal w :=
  decode_encode (i := .illegal w) (by simp [WellFormed, h])

/-- A reserved operation code makes a word illegal, whatever its argument (R39). -/
theorem not_legalWord_of_reserved_op {w : EventWord}
    (h : w.toNat / 65536 ∉ [0x00, 0x01, 0x02, 0x03, 0x10, 0x11]) : legalWord w = false := by
  simp only [List.mem_cons, List.not_mem_nil, or_false, not_or] at h
  rw [Bool.eq_false_iff, Ne, legalWord_iff_toNat]
  omega

/-- Settles O2: a word whose fields are a legal row's is, as a number, the word of that row's instruction,
so the round trip decodes it; the words the last clause is about are exactly those that are not legal. -/
theorem everyWordDecodesByItsOpAndArg : Obligations.EveryWordDecodesByItsOpAndArg := by
  intro w op arg
  have hw : w.toNat = op * 65536 + arg := (Nat.div_add_mod' _ _).symm
  have harg : arg < 65536 := Nat.mod_lt _ (by decide)
  refine ⟨fun ⟨hop, hhigh⟩ => decode_eq_of_toNat rfl ?byte,
    fun ⟨hop, hzero⟩ => decode_eq_of_toNat rfl ?noData,
    fun ⟨hop, hzero⟩ => decode_eq_of_toNat rfl ?eof,
    fun ⟨hop, hzero⟩ => decode_eq_of_toNat rfl ?cancel,
    fun hop => decode_eq_of_toNat rfl ?genInit,
    fun ⟨hop, hhigh⟩ => decode_eq_of_toNat rfl ?genByte,
    fun hillegal => decode_of_not_legalWord ?illegal⟩
  case byte => rw [encode_byte_toNat, BitVec.toNat_ofNat]; omega
  case noData | eof | cancel => rw [hw, hop, hzero]; rfl
  case genInit => rw [encode_genInit_toNat, BitVec.toNat_ofNat]; omega
  case genByte => rw [encode_genByte_toNat, BitVec.toNat_ofNat]; omega
  case illegal => rwa [Bool.eq_false_iff, Ne, legalWord_iff_toNat]

end Sys2Proof

namespace Sys2Proof.Machine

/-- Settles O43: every such word is not legal and so decodes to ILLEGAL, whose meaning appends its report
and writes nothing else. -/
theorem illegalWordOnlyReports : Obligations.IllegalWordOnlyReports := by
  refine ⟨fun s w => rfl, fun s w rest hin hw => ?_⟩
  have hlegal : legalWord w = false := hw.elim id not_legalWord_of_reserved_op
  rw [step_event hin, decode_of_not_legalWord hlegal]
  rfl

end Sys2Proof.Machine

/-! ## The CRC unit (R49, R51)

One shift on natural numbers, and the laws of the fold. -/

namespace Sys2Proof.Machine

/-- One masked shift of R49 on natural numbers. -/
def natCrcShift (x : Nat) : Nat :=
  if 32768 ≤ x then ((x * 2) ^^^ 0x1021) % 65536 else (x * 2) % 65536

/-- The tested bit of R49 is set exactly in the upper half of the 16-bit range. -/
theorem getLsbD_top_iff (x : Half) : x.getLsbD 15 = true ↔ 32768 ≤ x.toNat := by
  have hmsb : x.getLsbD 15 = x.msb := (BitVec.msb_eq_getLsbD_last x).symm
  rw [hmsb, BitVec.msb_eq_decide]
  exact decide_eq_true_iff

theorem shiftLeft_one_toNat (x : Half) : (x <<< 1).toNat = x.toNat * 2 % 65536 := by
  simp [BitVec.toNat_shiftLeft, Nat.shiftLeft_eq]

/-- Masking before or after the XOR is the same, because the polynomial has 16 bits (R49). -/
theorem crcShift_toNat (x : Half) : (crcShift x).toNat = natCrcShift x.toNat := by
  unfold crcShift natCrcShift
  by_cases htop : 32768 ≤ x.toNat
  · rw [if_pos htop, if_pos ((getLsbD_top_iff x).mpr htop), BitVec.toNat_xor, shiftLeft_one_toNat]
    exact (Nat.xor_mod_two_pow (a := x.toNat * 2) (b := 0x1021) (n := 16)).symm
  · rw [if_neg htop, if_neg (mt (getLsbD_top_iff x).mp htop), shiftLeft_one_toNat]

/-- The last of several shifts, split off. -/
theorem crcShifts_succ_last (n : Nat) (x : Half) : crcShifts (n + 1) x = crcShift (crcShifts n x) := by
  induction n generalizing x with
  | zero => rfl
  | succ n ih => exact ih (crcShift x)

theorem crcShifts_toNat (n : Nat) (x : Half) :
    (crcShifts n x).toNat = Nat.repeat natCrcShift n x.toNat := by
  induction n with
  | zero => rfl
  | succ n ih => rw [crcShifts_succ_last, crcShift_toNat, ih]; rfl

/-- The byte enters at bits 15:8. -/
theorem byte_at_high_toNat (b : Byte) : (b.zeroExtend 16 <<< 8 : Half).toNat = b.toNat * 256 := by
  have hb := b.isLt
  rw [BitVec.toNat_shiftLeft, Nat.shiftLeft_eq, BitVec.zeroExtend_eq_setWidth, BitVec.toNat_setWidth]
  omega

/-- Settles O14: each shift is its form on natural numbers, and the byte step is eight of them. -/
theorem crcStepIsEightMaskedShifts : Obligations.CrcStepIsEightMaskedShifts := by
  refine ⟨fun c b => ?_, fun c b => by simp [crcStep], by decide, by decide⟩
  have hstep := crcShifts_toNat 8 (c ^^^ (b.zeroExtend 16 <<< 8))
  rwa [BitVec.toNat_xor, byte_at_high_toNat] at hstep

theorem crc16_append (a b : List Byte) (seed : Half) : crc16 (a ++ b) seed = crc16 b (crc16 a seed) :=
  List.foldl_append

/-- Settles O15: the laws of the fold, and the check value run on the model. -/
theorem crcFoldsTheByteStep : Obligations.CrcFoldsTheByteStep :=
  ⟨crc16_nil, crc16_cons, crc16_append, fun _ => rfl, by decide +kernel⟩

end Sys2Proof.Machine

/-! ## The generator's own events (R52, R53) -/

namespace Sys2Proof

theorem decode_genInit (seed : Half) : decode (0x10#8 ++ seed) = .genInit seed :=
  decode_encode (i := .genInit seed) rfl

theorem decode_genByte (b : Byte) : decode (0x1100#16 ++ b) = .genByte b :=
  decode_encode (i := .genByte b) rfl

/-- Three bytes in a row, as one number. -/
theorem append_bytes_toNat (op high low : Byte) :
    (op ++ high ++ low : EventWord).toNat = op.toNat * 65536 + high.toNat * 256 + low.toNat := by
  rw [BitVec.toNat_append, ← Nat.shiftLeft_add_eq_or_of_lt low.isLt, BitVec.toNat_append,
    ← Nat.shiftLeft_add_eq_or_of_lt high.isLt, Nat.shiftLeft_eq, Nat.shiftLeft_eq]
  omega

/-- GEN_BYTE's operation code with a nonzero upper argument byte is not legal (R39, R53). -/
theorem not_legalWord_genByte_of_high {high b : Byte} (hhigh : high ≠ 0) :
    legalWord (0x11#8 ++ high ++ b) = false := by
  have hpos : high.toNat ≠ 0 := fun h0 => hhigh (BitVec.eq_of_toNat_eq h0)
  have hlt := high.isLt
  have hb := b.isLt
  have hop : (0x11#8).toNat = 17 := rfl
  rw [Bool.eq_false_iff, Ne, legalWord_iff_toNat, append_bytes_toNat, hop]
  omega

end Sys2Proof

namespace Sys2Proof.Machine

theorem exec_genInit (seed : Half) (s : State) : exec (.genInit seed) s = .next { s with gcrc := seed } :=
  move_exec .genInit

theorem exec_genByte (b : Byte) (s : State) :
    exec (.genByte b) s = .next { s with gcrc := crcStep s.gcrc b } :=
  move_exec .genByte

/-- A presented GEN_INIT loads its seed, and the run goes on. -/
theorem runSteps_presenting_genInit {w : EventWord} {seed : Half} (hw : decode w = .genInit seed)
    (ws : List EventWord) (rest : List Input) (s : State) (k : Nat) :
    runSteps (k + 1) (presenting (w :: ws) rest s) = runSteps k (presenting ws rest { s with gcrc := seed }) :=
  runSteps_presenting (hw ▸ exec_genInit seed _)

/-- A presented GEN_BYTE feeds its byte, and the run goes on. -/
theorem runSteps_presenting_genByte {w : EventWord} {b : Byte} (hw : decode w = .genByte b)
    (ws : List EventWord) (rest : List Input) (s : State) (k : Nat) :
    runSteps (k + 1) (presenting (w :: ws) rest s) =
      runSteps k (presenting ws rest { s with gcrc := crcStep s.gcrc b }) :=
  runSteps_presenting (hw ▸ exec_genByte b _)

/-- Settles O19: GEN_INIT's word decodes to it, its meaning writes `gcrc` alone, and a second one writes it
again. -/
theorem genInitLoadsTheSeed : Obligations.GenInitLoadsTheSeed := by
  refine ⟨decode_genInit, fun s seed => exec_genInit seed s, fun s first second rest => ?_, fun s => ?_⟩
  · rw [runSteps_presenting_genInit (decode_genInit first),
      runSteps_presenting_genInit (decode_genInit second)]
    rfl
  · exact (decode_genInit 0x1D0F) ▸ exec_genInit 0x1D0F s

/-- From any state the GEN_BYTE events of a span fold the byte step over it, from the present `gcrc`. -/
theorem runSteps_asmGenBytes (d : List Byte) (rest : List Input) (s : State) :
    runSteps d.length (presenting (asmGenBytes d) rest s) =
      .next { s with gcrc := crc16 d s.gcrc, input := rest } := by
  induction d generalizing s with
  | nil => rfl
  | cons b d ih =>
    have hfirst := runSteps_presenting_genByte (decode_genByte b) (asmGenBytes d) rest s d.length
    exact hfirst.trans (ih _)

/-- Settles O20: GEN_BYTE's word decodes to it, its meaning writes `gcrc` alone, a word with upper argument
bits is not legal, and a span of GEN_BYTE events is the fold. -/
theorem genByteFeedsTheGenerator : Obligations.GenByteFeedsTheGenerator := by
  refine ⟨decode_genByte, fun s b => exec_genByte b s, fun s high b hhigh => ?_,
    fun cfg d rest => runSteps_asmGenBytes d rest (State.resetWith cfg), fun s => ?_⟩
  · rw [decode_of_not_legalWord (not_legalWord_genByte_of_high hhigh)]
    rfl
  · have hinit : decode 0x10FFFF = .genInit 0xFFFF := decode_genInit 0xFFFF
    have hbyte : decode 0x110031 = .genByte 0x31 := decode_genByte 0x31
    have hcrc : crcStep 0xFFFF 0x31 = 0xC782 := by decide
    rw [runSteps_presenting_genInit hinit, runSteps_presenting_genByte hbyte, hcrc]
    rfl

end Sys2Proof.Machine

/-! ## Progress of the block

The part of the invariant that keeps every rule's count in its range (R27(c) to (e)): no instruction stops
a state that has it, and every instruction keeps it. -/

namespace Sys2Proof.Machine

/-- `cnt` and `f_len` are in the range that the rules of the present control state require
(R27(c) to (e)). -/
def CountInRange (s : State) : Prop :=
  match s.st with
  | .seekingSync => True
  | .readingHeader => s.cnt.toNat ≤ 8
  | .readingPayload => s.cnt.toNat < s.fLen.toNat ∧ LengthFits s
  | .readingCrc => s.cnt.toNat ≤ 1 ∧ LengthFits s
  | .closed => True

theorem countInRange_iff_of_header {s : State} (hst : s.st = .readingHeader) :
    CountInRange s ↔ s.cnt.toNat ≤ 8 := by
  simp only [CountInRange, hst]

theorem countInRange_iff_of_payload {s : State} (hst : s.st = .readingPayload) :
    CountInRange s ↔ s.cnt.toNat < s.fLen.toNat ∧ LengthFits s := by
  simp only [CountInRange, hst]

theorem countInRange_iff_of_crc {s : State} (hst : s.st = .readingCrc) :
    CountInRange s ↔ s.cnt.toNat ≤ 1 ∧ LengthFits s := by
  simp only [CountInRange, hst]

theorem BlockInv.countInRange {s : State} (h : BlockInv s) : CountInRange s := by
  unfold CountInRange
  split
  · trivial
  · next hst => exact h.headerCount hst
  · next hst => exact ⟨h.payloadCount hst, h.payloadFits hst⟩
  · next hst => exact ⟨h.crcCount hst, h.crcFits hst⟩
  · trivial

/-- BYTE has a rule in every state whose count is in range. -/
theorem exec_byte_progress {s : State} (h : CountInRange s) (b : Byte) : ∃ t, exec (.byte b) s = .next t := by
  cases hst : s.st with
  | seekingSync => exact ⟨_, move_exec (.scan hst)⟩
  | readingHeader =>
    obtain hk | hk := Nat.lt_or_eq_of_le ((countInRange_iff_of_header hst).mp h)
    · exact ⟨_, move_exec (.headerByte hst hk)⟩
    · exact ⟨_, move_exec (.headerLast hst hk)⟩
  | readingPayload =>
    obtain ⟨hk, hfits⟩ := (countInRange_iff_of_payload hst).mp h
    have hindex : s.cnt.toNat < pbufSize s.cfg := Nat.lt_of_lt_of_le hk hfits
    obtain hmore | hlast := Nat.lt_or_eq_of_le hk
    · exact ⟨_, move_exec (.payloadByte hst hmore hindex)⟩
    · exact ⟨_, move_exec (.payloadLast hst hlast hindex)⟩
  | readingCrc =>
    obtain ⟨hk, hfits⟩ := (countInRange_iff_of_crc hst).mp h
    obtain h0 | h1 := Nat.le_one_iff_eq_zero_or_eq_one.mp hk
    · exact ⟨_, move_exec (.checksumLow hst (BitVec.eq_of_toNat_eq h0))⟩
    · have hcnt : s.cnt = 1 := BitVec.eq_of_toNat_eq h1
      by_cases hrx : receivedChecksum b s = s.fcrc
      · exact ⟨_, move_exec (.valid hst hcnt hrx hfits)⟩
      · exact ⟨_, move_exec (.mismatch hst hcnt hrx)⟩
  | closed => exact ⟨_, move_exec (.ignored hst (.inl ⟨b, rfl⟩))⟩

/-- No instruction stops a state whose count is in range. -/
theorem exec_progress {s : State} (h : CountInRange s) (i : Instr) : ∃ t, exec i s = .next t := by
  cases i with
  | byte b => exact exec_byte_progress h b
  | noData =>
    cases hst : s.st with
    | seekingSync => exact ⟨_, move_exec (.scanNoData hst)⟩
    | readingHeader => exact ⟨_, move_exec (.shortRead (.inl ⟨hst, rfl⟩))⟩
    | readingPayload => exact ⟨_, move_exec (.shortRead (.inr (.inl ⟨hst, rfl⟩)))⟩
    | readingCrc => exact ⟨_, move_exec (.shortRead (.inr (.inr ⟨hst, rfl⟩)))⟩
    | closed => exact ⟨_, move_exec (.ignored hst (.inr (.inl rfl)))⟩
  | eof =>
    by_cases hst : s.st = .closed
    · exact ⟨_, move_exec (.ignored hst (.inr (.inr (.inl rfl))))⟩
    · exact ⟨_, move_exec (.closeEof hst)⟩
  | cancel =>
    by_cases hst : s.st = .closed
    · exact ⟨_, move_exec (.ignored hst (.inr (.inr (.inr rfl))))⟩
    · exact ⟨_, move_exec (.closeCancel hst)⟩
  | genInit seed => exact ⟨_, move_exec .genInit⟩
  | genByte b => exact ⟨_, move_exec .genByte⟩
  | illegal w => exact ⟨_, move_exec .illegal⟩

/-- A length the ceiling admits fits PBUF, with and without a ceiling (R5, R66). -/
theorem lengthFits_of_not_exceedsCeiling {s : State} (h : exceedsCeiling s.cfg s.fLen = false) :
    LengthFits s := by
  unfold LengthFits pbufSize
  unfold exceedsCeiling at h
  split
  · exact Nat.le_of_lt_succ s.fLen.isLt
  · next n hn => simpa [hn] using h

/-- A count below another 16-bit number does not wrap when it goes up by one. -/
theorem succ_toNat_of_lt {c : Half} {n : Nat} (hn : n < 65536) (h : c.toNat < n) :
    (c + 1).toNat = c.toNat + 1 := by
  rw [BitVec.toNat_add]
  exact Nat.mod_eq_of_lt (show c.toNat + 1 < 65536 by omega)

/-- A complete header leads to a state whose count is in range: the next reading state starts at 0, and its
length has passed the ceiling. -/
theorem headerComplete_countInRange (s : State) : CountInRange (headerComplete s) := by
  obtain ⟨-, e⟩ | ⟨hceil, -, e⟩ | ⟨hceil, hlen, e⟩ := headerComplete_cases s
  · rw [e s rfl rfl]; trivial
  · rw [e s rfl rfl]
    exact ⟨Nat.zero_le 1, lengthFits_of_not_exceedsCeiling hceil⟩
  · rw [e s rfl rfl]
    have hpos : 0 < s.fLen.toNat := Nat.pos_of_ne_zero fun h0 => hlen (BitVec.eq_of_toNat_eq h0)
    exact ⟨hpos, lengthFits_of_not_exceedsCeiling hceil⟩

/-- Every instruction keeps the count in range. -/
theorem exec_keeps_countInRange {i : Instr} {s t : State} (h : CountInRange s) (hex : exec i s = .next t) :
    CountInRange t := by
  cases exec_move hex with
  | ignored | genInit | genByte | illegal => exact h
  | scanNoData hst => simp [CountInRange, scanNoData, hst]
  | scan hst => unfold scanByte; split <;> simp [CountInRange, hst]
  | headerByte hst hk =>
    rw [countInRange_iff_of_header (by simp [hst]), countByte_cnt, placeHeader_cnt, feedFrameCrc_cnt,
      succ_toNat_of_lt (by decide) hk]
    exact hk
  | headerLast => exact headerComplete_countInRange _
  | payloadByte hst hk =>
    obtain ⟨-, hfits⟩ := (countInRange_iff_of_payload hst).mp h
    rw [countInRange_iff_of_payload (by simp [hst]), countByte_cnt, feedFrameCrc_cnt, writePbuf_cnt,
      succ_toNat_of_lt s.fLen.isLt (Nat.lt_of_succ_lt hk)]
    exact ⟨hk, hfits⟩
  | payloadLast hst =>
    obtain ⟨-, hfits⟩ := (countInRange_iff_of_payload hst).mp h
    exact ⟨Nat.zero_le 1, hfits⟩
  | checksumLow hst =>
    obtain ⟨-, hfits⟩ := (countInRange_iff_of_crc hst).mp h
    exact (countInRange_iff_of_crc (by simp [hst])).mpr ⟨Nat.le_refl 1, hfits⟩
  | valid | mismatch | shortRead | closeEof | closeCancel => trivial

end Sys2Proof.Machine

/-! ## The generator under interleaving (R54) -/

namespace Sys2Proof.Machine

theorem genBytesOf_cons_genByte {w : EventWord} {b : Byte} (h : decode w = .genByte b)
    (ws : List EventWord) : genBytesOf (w :: ws) = b :: genBytesOf ws := by
  simp only [genBytesOf, h]

theorem genBytesOf_cons_of_not_genByte {w : EventWord} (h : ∀ b, decode w ≠ .genByte b)
    (ws : List EventWord) : genBytesOf (w :: ws) = genBytesOf ws := by
  rw [genBytesOf]
  split
  · next b hb => exact absurd hb (h b)
  · rfl

theorem decode_ne_genInit {w : EventWord} (h : isGenInit w = false) (seed : Half) :
    decode w ≠ .genInit seed := by
  intro hd
  simp [isGenInit, hd] at h

theorem decode_ne_generator_of_framePath {w : EventWord} (h : isFramePath w = true) :
    (∀ seed, decode w ≠ .genInit seed) ∧ (∀ b, decode w ≠ .genByte b) := by
  constructor <;> intro _ hd <;> simp [isFramePath, hd] at h

/-- One event that is no GEN_INIT moves its byte, if it is GEN_BYTE, from the stream into `gcrc`: the CRC
still to come stays the same. -/
theorem exec_crc16_genBytesOf {w : EventWord} {s t : State} (hw : isGenInit w = false)
    (hex : exec (decode w) s = .next t) (ws : List EventWord) :
    crc16 (genBytesOf ws) t.gcrc = crc16 (genBytesOf (w :: ws)) s.gcrc := by
  by_cases hbyte : ∃ b, decode w = .genByte b
  · obtain ⟨b, hd⟩ := hbyte
    rw [hd, exec_genByte] at hex
    cases hex
    rw [genBytesOf_cons_genByte hd, crc16_cons]
  · have hnot : ∀ b, decode w ≠ .genByte b := not_exists.mp hbyte
    obtain ⟨hgcrc, -⟩ := exec_reads_no_outside ⟨decode_ne_genInit hw, hnot⟩ hex
    rw [hgcrc, genBytesOf_cons_of_not_genByte hnot]

/-- A stream with no GEN_INIT completes from every state whose count is in range, and `gcrc` goes on from
its present value over the bytes the stream feeds. -/
theorem runSteps_gcrc_of_no_genInit (ws : List EventWord) (rest : List Input) {s : State}
    (hs : CountInRange s) (hws : ∀ w ∈ ws, isGenInit w = false) :
    ∃ t, runSteps ws.length (presenting ws rest s) = .next t ∧
      t.gcrc = crc16 (genBytesOf ws) s.gcrc ∧ t.input = rest := by
  induction ws generalizing s with
  | nil => exact ⟨_, rfl, rfl, rfl⟩
  | cons w ws ih =>
    obtain ⟨hw, hrest⟩ := List.forall_mem_cons.mp hws
    have hpres : CountInRange (presenting ws rest s) := hs
    obtain ⟨u, hu⟩ := exec_progress hpres (decode w)
    obtain ⟨t, hrun, hgcrc, hin⟩ := ih (exec_keeps_countInRange hpres hu) hrest
    rw [← exec_presenting hu] at hrun
    exact ⟨t, (runSteps_presenting hu).trans hrun,
      hgcrc.trans (exec_crc16_genBytesOf hw hu ws), hin⟩

/-- A frame-path event leaves `gcrc`, and its result under another `gcrc` differs in `gcrc` alone. -/
theorem exec_framePath_gcrc {s t : State} {w : EventWord} (g : Half) (hw : isFramePath w = true)
    (hex : exec (decode w) s = .next t) :
    t.gcrc = s.gcrc ∧ exec (decode w) { s with gcrc := g } = .next { t with gcrc := g } := by
  obtain ⟨hgcrc, r, hout, hany⟩ := exec_reads_no_outside (decode_ne_generator_of_framePath hw) hex
  obtain ⟨hin, -⟩ := exec_input_cfg hex
  refine ⟨hgcrc, (hany g s.output s.input).trans ?_⟩
  rw [← hout, ← hin]
  rfl

/-- Settles O21: after GEN_INIT, by induction over the stream, each event keeping the CRC still to come; no
event stops the run, because each keeps the count in range. -/
theorem generatorComputesTheCrcUnderInterleaving :
    Obligations.GeneratorComputesTheCrcUnderInterleaving := by
  refine ⟨fun s seed ws rest hinv hws => ?_, fun s t w g hw hex => exec_framePath_gcrc g hw hex⟩
  have hseeded : CountInRange { s with gcrc := seed } := hinv.countInRange
  obtain ⟨t, hrun, ht⟩ := runSteps_gcrc_of_no_genInit ws rest hseeded hws
  exact ⟨t, (runSteps_presenting_genInit (decode_genInit seed) ws rest s ws.length).trans hrun, ht⟩

end Sys2Proof.Machine

/-! ## The sync unit (R58 to R60)

What BYTE and NODATA answer in SEEKING_SYNC, and one presented event of each in a run. -/

namespace Sys2Proof

theorem decode_byte (b : Byte) : decode (0x0000#16 ++ b) = .byte b :=
  decode_encode (i := .byte b) rfl

theorem decode_noData : decode 0x010000 = .noData :=
  decode_encode (i := .noData) rfl

end Sys2Proof

namespace Sys2Proof.Machine

theorem scanByte_of_marker {s : State} {b : Byte} (h : s.seenAa = true ∧ b = 0x55) :
    scanByte b s = startAttempt s :=
  if_pos h

theorem scanByte_of_not_marker {s : State} {b : Byte} (h : ¬ (s.seenAa = true ∧ b = 0x55)) :
    scanByte b s = { s with seenAa := decide (b = 0xAA) } :=
  if_neg h

theorem scanByte_presenting (b : Byte) (ws : List EventWord) (rest : List Input) (s : State) :
    scanByte b (presenting ws rest s) = presenting ws rest (scanByte b s) := by
  unfold scanByte
  rw [apply_ite (presenting ws rest)]
  rfl

/-- A presented BYTE is scanned in SEEKING_SYNC, and the run goes on. -/
theorem runSteps_presenting_scanByte {s : State} (hst : s.st = .seekingSync) (b : Byte)
    (ws : List EventWord) (rest : List Input) (k : Nat) :
    runSteps (k + 1) (presenting (encode (.byte b) :: ws) rest s) =
      runSteps k (presenting ws rest (scanByte b s)) := by
  have hscan : exec (decode (encode (.byte b))) (presenting ws rest s) =
      .next (scanByte b (presenting ws rest s)) := by
    rw [decode_encode rfl]
    exact move_exec (.scan hst)
  rw [runSteps_presenting hscan, scanByte_presenting]

/-- A byte other than 0x55 ends no marker, whatever came before it: only `seen_aa` changes. -/
theorem runSteps_presenting_byte_of_ne {s : State} {b : Byte} (hst : s.st = .seekingSync) (hb : b ≠ 0x55)
    (ws : List EventWord) (rest : List Input) (k : Nat) :
    runSteps (k + 1) (presenting (encode (.byte b) :: ws) rest s) =
      runSteps k (presenting ws rest { s with seenAa := decide (b = 0xAA) }) := by
  rw [runSteps_presenting_scanByte hst, scanByte_of_not_marker fun h => hb h.2]

/-- Without an 0xAA just before it, 0x55 ends no marker. -/
theorem runSteps_presenting_second_of_not_seenAa {s : State} (hst : s.st = .seekingSync)
    (hseen : s.seenAa = false) (ws : List EventWord) (rest : List Input) (k : Nat) :
    runSteps (k + 1) (presenting (encode (.byte 0x55) :: ws) rest s) =
      runSteps k (presenting ws rest s) := by
  have hno : scanByte 0x55 s = { s with seenAa := false } := scanByte_of_not_marker (by simp [hseen])
  rw [runSteps_presenting_scanByte hst, hno, ← hseen]

/-- A presented NODATA is reported in SEEKING_SYNC, and the run goes on. -/
theorem runSteps_presenting_scanNoData {s : State} (hst : s.st = .seekingSync) (ws : List EventWord)
    (rest : List Input) (k : Nat) :
    runSteps (k + 1) (presenting (0x010000 :: ws) rest s) =
      runSteps k (presenting ws rest (scanNoData s)) :=
  runSteps_presenting (decode_noData ▸ move_exec (.scanNoData hst))

/-- Settles O23: BYTE's word decodes to it and `scanByte` has these two branches; in the corner cases the
second 0xAA keeps `seen_aa` set, and the 0x00 clears it. -/
theorem seekingByteScansForTheMarker : Obligations.SeekingByteScansForTheMarker := by
  refine ⟨decode_byte, fun s b hst => ⟨fun hmarker => ?_, fun hno => ?_⟩, fun s rest hst => ?_⟩
  · rw [move_exec (.scan hst), scanByte_of_marker hmarker]; rfl
  · rw [move_exec (.scan hst), scanByte_of_not_marker hno]
  have hseen : State.st { s with seenAa := true } = .seekingSync := hst
  have hcleared : State.st { s with seenAa := false } = .seekingSync := hst
  constructor
  · calc
      _ = runSteps 2 (presenting (asmBytes [0xAA, 0x55]) rest { s with seenAa := true }) :=
        runSteps_presenting_byte_of_ne hst (by decide) _ rest 2
      _ = runSteps 1 (presenting (asmBytes [0x55]) rest { s with seenAa := true }) :=
        runSteps_presenting_byte_of_ne hseen (by decide) _ rest 1
      _ = runSteps 0 (presenting [] rest (startAttempt s)) :=
        runSteps_presenting_scanByte hseen 0x55 [] rest 0
  · calc
      _ = runSteps 2 (presenting (asmBytes [0x00, 0x55]) rest { s with seenAa := true }) :=
        runSteps_presenting_byte_of_ne hst (by decide) _ rest 2
      _ = runSteps 1 (presenting (asmBytes [0x55]) rest { s with seenAa := false }) :=
        runSteps_presenting_byte_of_ne hseen (by decide) _ rest 1
      _ = runSteps 0 (presenting [] rest { s with seenAa := false }) :=
        runSteps_presenting_second_of_not_seenAa hcleared rfl [] rest 0

/-- NODATA repeated in SEEKING_SYNC gives one NO_FRAME_AVAILABLE per event. -/
theorem runSteps_replicate_noData (n : Nat) (rest : List Input) {s : State} (hst : s.st = .seekingSync)
    (hseen : s.seenAa = false) :
    runSteps n (presenting (List.replicate n 0x010000) rest s) =
      .next { s with input := rest, output := s.output ++ List.replicate n .noFrameAvailable } := by
  induction n generalizing s with
  | zero => simp [presenting]
  | succ n ih =>
    have hrest := ih (s := scanNoData s) hst rfl
    rw [List.replicate_succ, runSteps_presenting_scanNoData hst, hrest]
    simp [scanNoData, hseen, List.replicate_succ]

/-- Settles O24: `scanNoData` clears `seen_aa` and appends the report; a run of NODATA events repeats it, and
between 0xAA and 0x55 it takes the marker's first byte away. -/
theorem seekingNoDataReportsNoFrame : Obligations.SeekingNoDataReportsNoFrame := by
  refine ⟨fun s hst => move_exec (.scanNoData hst),
    fun s n rest hst hseen => runSteps_replicate_noData n rest hst hseen, fun s rest hst => ?_⟩
  have hseen : State.st { s with seenAa := true } = .seekingSync := hst
  have hreported : (scanNoData s).st = .seekingSync := hst
  calc
    _ = runSteps 2 (presenting [0x010000, 0x000055] rest { s with seenAa := true }) :=
      runSteps_presenting_byte_of_ne (b := 0xAA) hst (by decide) _ rest 2
    _ = runSteps 1 (presenting [0x000055] rest (scanNoData s)) :=
      runSteps_presenting_scanNoData hseen _ rest 1
    _ = runSteps 0 (presenting [] rest (scanNoData s)) :=
      runSteps_presenting_second_of_not_seenAa hreported rfl [] rest 0

/-! ### A stretch of bytes (R60)

A stretch grows at its end: the bytes before the last one lead to a state, and the last one is scanned
there. -/

/-- Nowhere in the stretch does 0x55 follow 0xAA. -/
def MarkerFree (bs : List Byte) : Prop :=
  ∀ i : Nat, ¬ (bs[i]? = some (0xAA : Byte) ∧ bs[i + 1]? = some (0x55 : Byte))

theorem MarkerFree.of_concat {bs : List Byte} {b : Byte} (h : MarkerFree (bs ++ [b])) : MarkerFree bs := by
  intro i hpair
  have hkept : ∀ {j : Nat} {c : Byte}, bs[j]? = some c → (bs ++ [b])[j]? = some c := fun hj => by
    rw [List.getElem?_append_left (List.getElem?_eq_some_iff.mp hj).1, hj]
  exact h i ⟨hkept hpair.1, hkept hpair.2⟩

theorem MarkerFree.not_marker_at_end {bs : List Byte} {b : Byte} (h : MarkerFree (bs ++ [b])) :
    ¬ (bs.getLast? = some 0xAA ∧ b = 0x55) := by
  rintro ⟨hlast, rfl⟩
  obtain ⟨as, rfl⟩ := List.getLast?_eq_some_iff.mp hlast
  exact h as.length (by simp)

theorem asmBytes_concat (bs : List Byte) (b : Byte) :
    asmBytes (bs ++ [b]) = asmBytes bs ++ [encode (.byte b)] :=
  List.map_append

theorem presenting_append (ws vs : List EventWord) (rest : List Input) (s : State) :
    presenting (ws ++ vs) rest s = presenting ws (vs.map Input.event ++ rest) s := by
  simp [presenting]

/-- One more byte at the end of a stretch is scanned in the state the stretch leads to. -/
theorem runSteps_asmBytes_concat {bs : List Byte} {s u : State} (b : Byte) (rest : List Input)
    (hst : u.st = .seekingSync)
    (hrun : ∀ xs, runSteps bs.length (presenting (asmBytes bs) xs s) = .next (presenting [] xs u)) :
    runSteps (bs.length + 1) (presenting (asmBytes (bs ++ [b])) rest s) =
      .next (presenting [] rest (scanByte b u)) := by
  rw [asmBytes_concat, presenting_append, runSteps_add (hrun _)]
  exact runSteps_presenting_scanByte hst b [] rest 0

/-- A stretch without a marker changes only `seen_aa`, to whether it ends in 0xAA. -/
theorem runSteps_asmBytes_of_markerFree {s : State} {bs : List Byte} (hst : s.st = .seekingSync)
    (hseen : s.seenAa = false) (hfree : MarkerFree bs) (rest : List Input) :
    runSteps bs.length (presenting (asmBytes bs) rest s) =
      .next (presenting [] rest { s with seenAa := decide (bs.getLast? = some 0xAA) }) := by
  induction bs using List.reverseRecOn generalizing rest with
  | nil => simp [presenting, asmBytes, ← hseen]
  | append_singleton bs b ih =>
    have hno : ¬ (decide (bs.getLast? = some 0xAA) = true ∧ b = 0x55) := by
      simpa using hfree.not_marker_at_end
    rw [List.length_append, List.length_singleton,
      runSteps_asmBytes_concat (u := { s with seenAa := decide (bs.getLast? = some 0xAA) }) b rest hst
        (ih hfree.of_concat), scanByte_of_not_marker hno]
    simp

/-- Settles O25: a stretch without the pair keeps scanning, by induction on its end, and when it ends in
0xAA the next 0x55 is scanned with `seen_aa` set. -/
theorem markerIsFoundAtTheFirstPair : Obligations.MarkerIsFoundAtTheFirstPair := by
  intro s bs rest hst hseen hfree
  have hstretch := runSteps_asmBytes_of_markerFree hst hseen hfree
  refine ⟨hstretch rest, fun hlast => ?_⟩
  have hmarker : decide (bs.getLast? = some 0xAA) = true ∧ (0x55 : Byte) = 0x55 := by simp [hlast]
  rw [runSteps_asmBytes_concat (u := { s with seenAa := decide (bs.getLast? = some 0xAA) }) 0x55 rest hst
    hstretch, scanByte_of_marker hmarker]
  rfl

end Sys2Proof.Machine

/-! ## The decoder unit: header and low checksum byte (R64 to R66, R73)

Which field each header byte writes, as the statements put it, and when the ceiling stops a frame. -/

namespace Sys2Proof.Machine

/-! ### The field of each header byte (R65) -/

theorem placeHeader_toNat_fType (c : Half) (b : Byte) (s : State) :
    (placeHeader c.toNat b s).fType = if c = 0 then b else s.fType := by
  simp only [BitVec.toNat_eq (x := c)]
  unfold placeHeader
  split <;> simp_all

theorem placeHeader_toNat_fSeq (c : Half) (b : Byte) (s : State) :
    (placeHeader c.toNat b s).fSeq = if c = 1 then s.fSeq.extractLsb' 8 8 ++ b
      else if c = 2 then b ++ s.fSeq.extractLsb' 0 8 else s.fSeq := by
  simp only [BitVec.toNat_eq (x := c)]
  unfold placeHeader
  split <;> simp_all [setByte_half]

theorem placeHeader_toNat_fLen (c : Half) (b : Byte) (s : State) :
    (placeHeader c.toNat b s).fLen = if c = 3 then s.fLen.extractLsb' 8 8 ++ b
      else if c = 4 then b ++ s.fLen.extractLsb' 0 8 else s.fLen := by
  simp only [BitVec.toNat_eq (x := c)]
  unfold placeHeader
  split <;> simp_all [setByte_half]

theorem placeHeader_toNat_fTs (c : Half) (b : Byte) (s : State) :
    (placeHeader c.toNat b s).fTs = if c = 5 then s.fTs.extractLsb' 8 24 ++ b
      else if c = 6 then s.fTs.extractLsb' 16 16 ++ b ++ s.fTs.extractLsb' 0 8
      else if c = 7 then s.fTs.extractLsb' 24 8 ++ b ++ s.fTs.extractLsb' 0 16
      else if c = 8 then b ++ s.fTs.extractLsb' 0 24 else s.fTs := by
  simp only [BitVec.toNat_eq (x := c)]
  unfold placeHeader
  split <;> simp_all [setByte_quad]

/-- A header byte, the last one too, is placed and fed to the running CRC; what the block then decides
writes `st`, `seen_aa`, `cnt` and the trace alone (R64, R65). -/
theorem exec_headerByte_eq_placed {s : State} (b : Byte) (hst : s.st = .readingHeader) (hk : s.cnt.toNat ≤ 8) :
    ∃ st seenAa cnt output, exec (.byte b) s = .next
      { placeHeader s.cnt.toNat b (feedFrameCrc b s) with
        st := st, seenAa := seenAa, cnt := cnt, output := output } := by
  obtain hlt | h8 := Nat.lt_or_eq_of_le hk
  · exact ⟨_, _, _, _, move_exec (.headerByte hst hlt)⟩
  · rw [move_exec (.headerLast hst h8), h8]
    obtain ⟨-, hend⟩ | ⟨-, -, hend⟩ | ⟨-, -, hend⟩ := headerComplete_cases s <;>
      exact ⟨_, _, _, _, congrArg _ (hend _ rfl rfl)⟩

/-- Settles O27: the next state is the one with the byte placed and fed to `fcrc`, in all but the control
registers, and placing it writes these fields. -/
theorem headerByteGoesToItsField : Obligations.HeaderByteGoesToItsField := by
  intro s b hst hk
  obtain ⟨st, seenAa, cnt, output, hex⟩ := exec_headerByte_eq_placed b hst hk
  refine ⟨_, hex, ?_, placeHeader_toNat_fType _ b _, placeHeader_toNat_fSeq _ b _,
    placeHeader_toNat_fLen _ b _, placeHeader_toNat_fTs _ b _, ?_, ?_, ?_, ?_, ?_,
    pbufByte_congr ?_⟩ <;> simp

/-! ### The end of the header (R64, R66) -/

theorem exceedsCeiling_iff (cfg : Config) (len : Half) :
    exceedsCeiling cfg len = true ↔ ∃ n, cfg.maxLen = some n ∧ n.toNat < len.toNat := by
  unfold exceedsCeiling
  split <;> simp [*]

/-- Settles O28: before the ninth byte `cnt` goes up by one; the ninth ends the header in one of its three
ways, the ceiling first. -/
theorem ninthHeaderByteDecides : Obligations.NinthHeaderByteDecides := by
  intro s b hst
  simp only [← exceedsCeiling_iff]
  refine ⟨fun hlt => ?_, fun h8 => ?_, fun hzero => by simp [exceedsCeiling_iff, hzero]⟩
  · have hcnt : (s.cnt + 1).toNat = s.cnt.toNat + 1 := succ_toNat_of_lt (by decide) hlt
    exact ⟨_, move_exec (.headerByte hst hlt), by simp [hst], by simpa using hcnt, by simp, by simp⟩
  · refine ⟨_, move_exec (.headerLast hst h8), ?_⟩
    obtain ⟨hover, hend⟩ | ⟨hceil, hlen, hend⟩ | ⟨hceil, hlen, hend⟩ := headerComplete_cases s <;>
      rw [hend (placeHeader 8 b (feedFrameCrc b s)) rfl rfl]
    · simp [hover]
    · simpa [hceil] using hlen
    · simpa [hceil] using hlen

/-! ### The low checksum byte (R73) -/

/-- Settles O31: this is the move of the first checksum byte. -/
theorem lowChecksumByteIsKept : Obligations.LowChecksumByteIsKept :=
  fun _ _ hst hcnt => move_exec (.checksumLow hst hcnt)

end Sys2Proof.Machine

/-! ## The codec unit (R75, R83 to R88)

What a step that emits FRAME_VALID did; then the lanes of `elemental` as numbers. -/

namespace Sys2Proof.Machine

/-! ### The record FRAME_VALID (R74, R75, R83) -/

@[simp] theorem scanByte_output (b : Byte) (s : State) : (scanByte b s).output = s.output := by
  unfold scanByte
  split <;> rfl

/-- FRAME_VALID comes only from the move of a matching high checksum byte; it carries the registers of that
state. -/
theorem exec_emits_frameValid {i : Instr} {s t : State} {f : Frame} (hex : exec i s = .next t)
    (hout : t.output = s.output ++ [.frameValid f]) :
    ∃ b, i = .byte b ∧ s.st = .readingCrc ∧ s.cnt = 1 ∧ receivedChecksum b s = s.fcrc ∧
      s.fLen.toNat ≤ pbufSize s.cfg ∧ f = validFrame s.fcrc s ∧
      t = raiseStatus (.frameValid f) .seekingSync s := by
  cases exec_move hex with
  | @valid b _ hst hcnt hrx hfit =>
    obtain rfl : validFrame (receivedChecksum b s) s = f := by simpa using hout
    exact ⟨b, rfl, hst, hcnt, hrx, hfit, by rw [hrx], rfl⟩
  | @headerLast b =>
    obtain ⟨-, hend⟩ | ⟨-, -, hend⟩ | ⟨-, -, hend⟩ :=
      headerComplete_cases (placeHeader 8 b (feedFrameCrc b s)) <;>
      simp [hend _ rfl rfl] at hout
  | scanNoData | shortRead | mismatch | closeEof | closeCancel | illegal =>
    simp [scanNoData, shortRead] at hout
  | ignored | scan | headerByte | payloadByte | payloadLast | checksumLow | genInit | genByte =>
    simp at hout

/-- The same of a step: waiting and reset emit nothing. -/
theorem step_emits_frameValid {s t : State} {f : Frame} (hstep : step s = .next t)
    (hout : t.output = s.output ++ [.frameValid f]) :
    ∃ b rest, s.input = .event (0x0000#16 ++ b) :: rest ∧ s.st = .readingCrc ∧ s.cnt = 1 ∧
      receivedChecksum b s = s.fcrc ∧ s.fLen.toNat ≤ pbufSize s.cfg ∧ f = validFrame s.fcrc s ∧
      t = raiseStatus (.frameValid f) .seekingSync { s with input := rest } := by
  obtain ⟨-, rfl⟩ | ⟨w, rest, hin, hex⟩ | ⟨rest, -, rfl⟩ := step_cases hstep
  · simp at hout
  · obtain ⟨b, hi, hvalid⟩ := exec_emits_frameValid hex hout
    have hw : w = 0x0000#16 ++ b := eq_encode_of_decode hi
    exact ⟨b, rest, hw ▸ hin, hvalid⟩
  · simp at hout

theorem elementalField_of_busFrame {s : State} (htype : s.fType = 0x20) (hlen : s.fLen = 4) :
    elementalField s =
      some (elementalDecode (pbufByte s 0) (pbufByte s 1) (pbufByte s 2) (pbufByte s 3)) :=
  if_pos ⟨htype, hlen⟩

theorem elementalField_isSome_iff (s : State) :
    (elementalField s).isSome = true ↔ s.fType = 0x20 ∧ s.fLen = 4 := by
  unfold elementalField
  split
  · next hbus => exact iff_of_true rfl hbus
  · next hother => exact iff_of_false Bool.false_ne_true hother

/-- Settles O39: the record is that of the matching high checksum byte, with the block's own registers and
`elemental` field. -/
theorem elementalIsPresentExactlyForTheBusFrame : Obligations.ElementalIsPresentExactlyForTheBusFrame := by
  intro s t f hstep hout
  obtain ⟨b, rest, hin, hst, hcnt, hrx, -, rfl, -⟩ := step_emits_frameValid hstep hout
  exact ⟨elementalField_isSome_iff s, rfl, b, rest, hin, hst, hcnt, hrx⟩

/-! ### The lanes (R84, R85, R87, R88) -/

@[simp] theorem lane_raw (p : Byte) : (lane p).raw = p.toInt := rfl

theorem lane_norm (p : Byte) : (lane p).norm = ((lane p).raw : Rat) / 127 :=
  Rat.mkRat_eq_div p.toInt 127

theorem lane_eq_mk (p : Byte) : lane p = ⟨p.toInt, (p.toInt : Rat) / 127⟩ :=
  congrArg (Lane.mk _) (lane_norm p)

theorem lane_raw_eq_toNat (p : Byte) :
    (lane p).raw = if p.toNat < 128 then (p.toNat : Int) else (p.toNat : Int) - 256 := by
  rw [lane_raw, BitVec.toInt_eq_toNat_cond]
  split_ifs <;> omega

theorem lane_raw_range (p : Byte) : -128 ≤ (lane p).raw ∧ (lane p).raw ≤ 127 :=
  ⟨BitVec.le_toInt p, Int.le_of_lt_add_one (BitVec.toInt_lt (x := p))⟩

theorem lane_raw_lt_neg127_iff (p : Byte) : (lane p).raw < -127 ↔ p = 0x80 := by
  constructor
  · intro hlt
    have hmin : (lane p).raw = (0x80 : Byte).toInt :=
      le_antisymm (Int.le_sub_one_of_lt hlt) (lane_raw_range p).1
    exact BitVec.eq_of_toInt_eq hmin
  · rintro rfl; decide

/-- Settles O40: each lane by its two equations, the example's among them. -/
theorem elementalLanesAreSignedBytesOver127 : Obligations.ElementalLanesAreSignedBytesOver127 := by
  refine ⟨fun p => ⟨lane_raw_eq_toNat p, lane_norm p⟩, fun _ _ _ _ => ⟨rfl, rfl, rfl, rfl⟩,
    fun _ => elementalField_of_busFrame, rfl, rfl, rfl, rfl, ?_⟩
  simp [elementalDecode, lane_eq_mk]

/-- Settles O41: dividing by 127 carries the range of `raw` over, and `raw` is under -127 only at 0x80. -/
theorem normalizedRangeKeepsTheOvershoot : Obligations.NormalizedRangeKeepsTheOvershoot := by
  refine ⟨lane_norm, fun p => ?_, ?_⟩
  · obtain ⟨hlo, hhi⟩ := lane_raw_range p
    have hlo' : (-128 : Rat) ≤ (lane p).raw := by exact_mod_cast hlo
    have hhi' : ((lane p).raw : Rat) ≤ 127 := by exact_mod_cast hhi
    rw [lane_norm, ← lane_raw_lt_neg127_iff, div_lt_iff₀ (by norm_num)]
    refine ⟨by linarith, by linarith, ?_⟩
    rw [← @Int.cast_lt Rat]
    norm_num
  · simp [lane_norm]

end Sys2Proof.Machine

/-! ## End of the stream and CLOSED (R97 to R99)

EOF and CANCEL outside CLOSED; then what CLOSED ignores, and what leaves it. -/

namespace Sys2Proof

theorem decode_eof : decode 0x020000 = .eof :=
  decode_encode (i := .eof) rfl

theorem decode_cancel : decode 0x030000 = .cancel :=
  decode_encode (i := .cancel) rfl

end Sys2Proof

namespace Sys2Proof.Machine

theorem inFrame_eq_decide (s : State) :
    inFrame s = decide (s.st = .readingHeader ∨ s.st = .readingPayload ∨ s.st = .readingCrc) := by
  unfold inFrame
  cases s.st <;> rfl

/-- Settles O44: this is the move that closes the frame path on EOF, with `in_frame` read off `st`. -/
theorem eofClosesTheFramePath : Obligations.EofClosesTheFramePath := by
  refine ⟨decode_eof, fun s hopen => ?_⟩
  rw [← inFrame_eq_decide]
  exact move_exec (.closeEof hopen)

/-- Settles O45: this is the move that closes the frame path on CANCEL, with `in_frame` read off `st`. -/
theorem cancelClosesTheFramePath : Obligations.CancelClosesTheFramePath := by
  refine ⟨decode_cancel, fun s hopen => ?_⟩
  rw [← inFrame_eq_decide]
  exact move_exec (.closeCancel hopen)

/-- CLOSED answers every frame-path event with the same state (R99). -/
theorem exec_framePath_of_closed {i : Instr} {s : State} (hst : s.st = .closed)
    (hi : (∃ b, i = .byte b) ∨ i = .noData ∨ i = .eof ∨ i = .cancel) : exec i s = .next s :=
  move_exec (.ignored hst hi)

/-- A step that leaves CLOSED consumes a reset (R99). -/
theorem reset_of_step_leaves_closed {s t : State} (hst : s.st = .closed) (hstep : step s = .next t)
    (hleft : t.st ≠ .closed) :
    ∃ rest, s.input = .reset :: rest ∨ ∃ w, s.input = .resetWithEvent w :: rest := by
  obtain ⟨-, -, hopen, -⟩ | ⟨-, -, hopen, -⟩ | ⟨rest, hin, -⟩ | ⟨hkept, -⟩ := step_closeCause_cases hstep
  · exact absurd hst hopen
  · exact absurd hst hopen
  · exact ⟨rest, hin⟩
  · exact absurd (hkept.mpr hst) hleft

/-- Settles O46: CLOSED ignores the four frame-path events, the moves of the other three have no guard on
`st`, and of all that a step can do only reset reopens the frame path. -/
theorem closedAbsorbsFramePathEvents : Obligations.ClosedAbsorbsFramePathEvents := by
  intro s hst
  exact ⟨fun b => exec_framePath_of_closed hst (.inl ⟨b, rfl⟩),
    exec_framePath_of_closed hst (.inr (.inl rfl)),
    exec_framePath_of_closed hst (.inr (.inr (.inl rfl))),
    exec_framePath_of_closed hst (.inr (.inr (.inr rfl))),
    fun seed => exec_genInit seed s, fun b => exec_genByte b s, fun _ => move_exec .illegal,
    fun _ => reset_of_step_leaves_closed hst⟩

end Sys2Proof.Machine

/-! ## Reset (R107 to R109)

A step on reset, alone or with an event, and what it leaves presented. -/

namespace Sys2Proof.Machine

/-- A step on reset performs the reset, whether or not an event is presented with it (R107, R108). -/
theorem step_of_reset_presented {s : State} {rest : List Input}
    (h : s.input = .reset :: rest ∨ ∃ w, s.input = .resetWithEvent w :: rest) :
    step s = .next (resetRegisters { s with input := rest }) := by
  obtain halone | ⟨w, hwith⟩ := h
  · exact step_reset halone
  · exact step_resetWithEvent hwith

/-- Settles O55: a step on reset answers the reset registers, whose control state is SEEKING_SYNC and whose
trace is untouched; and of all that a step can do only reset leaves CLOSED. -/
theorem resetIsTheOnlyWayOutOfClosed : Obligations.ResetIsTheOnlyWayOutOfClosed :=
  ⟨fun _ _ hreset => ⟨_, step_of_reset_presented hreset, rfl, rfl, rfl, rfl⟩,
    fun _ _ => reset_of_step_leaves_closed⟩

/-- Settles O53: a step on reset answers the reset registers over the inputs that follow it. -/
theorem resetStepWritesTheResetValues : Obligations.ResetStepWritesTheResetValues := by
  intro s rest hin
  refine ⟨_, step_reset hin, ?_⟩
  simp

/-- Settles O54: the step on reset is the same with and without an event, and leaves presented only what
follows; an event presented again is then the next one to run. -/
theorem resetHasPriorityOverAnEvent : Obligations.ResetHasPriorityOverAnEvent := by
  refine ⟨fun s w rest => ?_, fun s w rest => ?_⟩
  · rw [step_resetWithEvent rfl, step_reset rfl]
  · exact ⟨_, step_resetWithEvent rfl, rfl, step_event rfl⟩

end Sys2Proof.Machine

/-! ## Encoding and the step (R9, R37 to R41, R56) -/

namespace Sys2Proof

/-- The decoder answers only well-formed instructions: the words it rejects are not legal. -/
theorem wellFormed_decode (w : EventWord) : WellFormed (decode w) = true := by
  obtain ⟨hbyte, hnoData, heof, hcancel, hinit, hgenByte, -⟩ := everyWordDecodesByItsOpAndArg w
  cases hlegal : legalWord w
  · rw [decode_of_not_legalWord hlegal]; simp [WellFormed, hlegal]
  · obtain h | ⟨hop | hop | hop, hzero⟩ | h | h := (legalWord_iff_toNat w).mp hlegal
    · rw [hbyte h]; rfl
    · rw [hnoData ⟨hop, hzero⟩]; rfl
    · rw [heof ⟨hop, hzero⟩]; rfl
    · rw [hcancel ⟨hop, hzero⟩]; rfl
    · rw [hinit h]; rfl
    · rw [hgenByte h]; rfl

/-- Settles O1: the round trip per instruction one way; the other way each row's mask and pattern give back
the word, and only words that are not legal reach the last row. -/
theorem decodeAndEncodeAgree : Obligations.DecodeAndEncodeAgree :=
  ⟨fun _ => decode_encode, fun w => ⟨wellFormed_decode w, encode_decode w⟩⟩

/-- Settles O3: these are the words of the instructions, the last two not legal. -/
theorem writtenOutWordsDecode : Obligations.WrittenOutWordsDecode := by
  refine ⟨?_, ?_, ?_, ?_, ?_, ?_, ?_, ?_⟩ <;> decide

end Sys2Proof

namespace Sys2Proof.Machine

/-- Settles O4: an event word is decoded and run; a well-formed instruction's word decodes to it. -/
theorem stepRunsThePresentedEvent : Obligations.StepRunsThePresentedEvent := by
  refine ⟨fun s w rest hin => step_event hin, fun s i rest hi hin => ?_⟩
  rw [step_event hin, decode_encode hi]

/-- Settles O5: this is the step with nothing presented. -/
theorem blockWaitsWhenNothingIsPresented : Obligations.BlockWaitsWhenNothingIsPresented :=
  fun _ => step_nil

end Sys2Proof.Machine

/-! ## The byte step as a linear map (R50, R55)

A shift is linear over GF(2) and has no kernel, and so have several shifts and the byte step. -/

namespace Sys2Proof.Machine

/-! ### Linearity -/

theorem crcShift_xor (x y : Half) : crcShift (x ^^^ y) = crcShift x ^^^ crcShift y := by
  have hcancel : ∀ a b p : Half, a ^^^ p ^^^ (b ^^^ p) = a ^^^ b := fun a b p => by
    rw [BitVec.xor_comm b, BitVec.xor_assoc, ← BitVec.xor_assoc p, BitVec.xor_self, BitVec.zero_xor]
  have hswap : ∀ a b p : Half, a ^^^ b ^^^ p = a ^^^ p ^^^ b := fun a b p => by ac_rfl
  unfold crcShift
  rw [BitVec.getLsbD_xor, BitVec.shiftLeft_xor_distrib]
  cases x.getLsbD 15 <;> cases y.getLsbD 15
  case false.false => rfl
  case false.true => exact BitVec.xor_assoc _ _ _
  case true.false => exact hswap _ _ _
  case true.true => exact (hcancel _ _ _).symm

theorem crcShifts_xor (n : Nat) (x y : Half) : crcShifts n (x ^^^ y) = crcShifts n x ^^^ crcShifts n y := by
  induction n generalizing x y with
  | zero => rfl
  | succ n ih => rw [crcShifts_succ, crcShift_xor, ih]; rfl

/-- A byte at bits 15:8, where it enters the CRC. -/
theorem byte_at_high_xor (a b : Byte) :
    (a ^^^ b).zeroExtend 16 <<< 8 = (a.zeroExtend 16 <<< 8 ^^^ b.zeroExtend 16 <<< 8 : Half) := by
  rw [← BitVec.shiftLeft_xor_distrib]
  exact congrArg (fun v : Half => v <<< 8) BitVec.setWidth_xor

/-- Both operands at once: the byte step of a sum is the sum of the byte steps. -/
theorem crcStep_xor (c₁ c₂ : Half) (b₁ b₂ : Byte) :
    crcStep (c₁ ^^^ c₂) (b₁ ^^^ b₂) = crcStep c₁ b₁ ^^^ crcStep c₂ b₂ := by
  unfold crcStep
  rw [byte_at_high_xor, ← crcShifts_xor]
  congr 1
  ac_rfl

theorem crcStep_zero_zero : crcStep 0 0 = 0 := by decide

/-- Settles O16: by the linearity of one shift, carried through the eight of them; the constant of the
affine law is 0. -/
theorem crcStepIsLinear : Obligations.CrcStepIsLinear := by
  refine ⟨fun c₁ c₂ b₁ b₂ => ?_, crcStep_zero_zero⟩
  rw [crcStep_xor, crcStep_zero_zero]
  exact BitVec.xor_zero.symm

/-! ### The table form -/

/-- As long as no set bit is shifted out, the shifts are a plain shift: the polynomial is never added. -/
theorem crcShifts_eq_shiftLeft (n : Nat) {x : Half} (h : x.toNat * 2 ^ n < 65536) :
    crcShifts n x = x <<< n := by
  induction n generalizing x with
  | zero => exact (BitVec.shiftLeft_zero x).symm
  | succ n ih =>
    have hpow : x.toNat * 2 ^ (n + 1) = x.toNat * 2 * 2 ^ n := by rw [Nat.pow_succ]; ring
    have hdouble : x.toNat * 2 < 65536 :=
      Nat.lt_of_le_of_lt (Nat.le_mul_of_pos_right _ (Nat.two_pow_pos n)) (hpow ▸ h)
    have htop : ¬ x.getLsbD 15 = true := by rw [getLsbD_top_iff]; omega
    have hshift : (x <<< 1).toNat = x.toNat * 2 := by
      rw [shiftLeft_one_toNat, Nat.mod_eq_of_lt hdouble]
    rw [crcShifts_succ, crcShift, if_neg htop, ih (by rw [hshift, ← hpow]; exact h),
      ← BitVec.shiftLeft_add, Nat.add_comm]

/-- A word is its upper byte at bits 15:8 and its lower byte. -/
theorem half_eq_high_xor_low (c : Half) :
    c = (c.extractLsb' 8 8).zeroExtend 16 <<< 8 ^^^ (c.extractLsb' 0 8).zeroExtend 16 := by
  apply BitVec.eq_of_getLsbD_eq
  intro i hi
  simp only [BitVec.getLsbD_xor, BitVec.getLsbD_shiftLeft, BitVec.zeroExtend_eq_setWidth,
    BitVec.getLsbD_setWidth, BitVec.getLsbD_extractLsb']
  by_cases hlow : i < 8
  · simp [hi, hlow]
  · simp [hi, hlow, show i - 8 < 16 by omega, show i - 8 < 8 by omega, show 8 + (i - 8) = i by omega]

/-- The lower byte of the state is only shifted up: eight shifts do not bring it to the top. -/
theorem crcStep_low (c : Half) : crcStep ((c.extractLsb' 0 8).zeroExtend 16) 0#8 = c <<< 8 := by
  have hlow : ((c.extractLsb' 0 8).zeroExtend 16 : Half).toNat = c.toNat % 256 := by
    rw [BitVec.zeroExtend_eq_setWidth, BitVec.toNat_setWidth, BitVec.extractLsb'_toNat]
    simp
    omega
  have hzero : ((0#8).zeroExtend 16 <<< 8 : Half) = 0#16 := rfl
  rw [crcStep, hzero, BitVec.xor_zero, crcShifts_eq_shiftLeft 8 (by rw [hlow]; omega)]
  apply BitVec.eq_of_toNat_eq
  rw [BitVec.toNat_shiftLeft, BitVec.toNat_shiftLeft, hlow, Nat.shiftLeft_eq, Nat.shiftLeft_eq]
  omega

/-- The upper byte of the state enters as a data byte does. -/
theorem crcStep_high (h b : Byte) : crcStep (h.zeroExtend 16 <<< 8) b = crcStep 0#16 (h ^^^ b) := by
  unfold crcStep
  rw [byte_at_high_xor, BitVec.zero_xor]

/-- Settles O17: the state is its upper byte, which enters as a data byte, plus its lower byte, which eight
shifts only move up. -/
theorem crcTableFormAgrees : Obligations.CrcTableFormAgrees := by
  intro c b
  calc crcStep c b
    _ = crcStep ((c.extractLsb' 0 8).zeroExtend 16 ^^^ (c.extractLsb' 8 8).zeroExtend 16 <<< 8)
          (0#8 ^^^ b) := by
      rw [BitVec.zero_xor, BitVec.xor_comm (BitVec.zeroExtend _ _), ← half_eq_high_xor_low]
    _ = crcStep ((c.extractLsb' 0 8).zeroExtend 16) 0#8 ^^^
          crcStep ((c.extractLsb' 8 8).zeroExtend 16 <<< 8) b := crcStep_xor _ _ _ _
    _ = c <<< 8 ^^^ crcStep 0 (c.extractLsb' 8 8 ^^^ b) := by rw [crcStep_low, crcStep_high]; rfl

/-! ### Injectivity -/

/-- Only 0 shifts to 0: the polynomial's last bit is set, so adding it leaves a set bit. -/
theorem eq_zero_of_crcShift_eq_zero {x : Half} (h : crcShift x = 0) : x = 0 := by
  unfold crcShift at h
  split at h
  · have hbit : (x <<< 1 ^^^ crcPolynomial).getLsbD 0 = true := by simp
    rw [h] at hbit
    exact absurd hbit (by decide)
  · next htop =>
    rw [getLsbD_top_iff] at htop
    have hnat : x.toNat * 2 % 65536 = 0 := by rw [← shiftLeft_one_toNat, h]; rfl
    apply BitVec.eq_of_toNat_eq
    show x.toNat = 0
    omega

theorem crcShift_injective : Function.Injective crcShift := by
  intro x y h
  have hzero : crcShift (x ^^^ y) = 0 := by rw [crcShift_xor, h, BitVec.xor_self]; rfl
  exact BitVec.xor_eq_zero_iff.mp (eq_zero_of_crcShift_eq_zero hzero)

theorem crcShifts_injective (n : Nat) : Function.Injective (crcShifts n) := by
  induction n with
  | zero => exact fun _ _ h => h
  | succ n ih => exact ih.comp crcShift_injective

theorem byte_at_high_injective : Function.Injective fun b : Byte => (b.zeroExtend 16 <<< 8 : Half) := by
  intro a b h
  have hnat := congrArg BitVec.toNat h
  simp only [byte_at_high_toNat] at hnat
  exact BitVec.eq_of_toNat_eq (by omega)

/-- Different states stay different under the same byte. -/
theorem crcStep_injective_state (b : Byte) : Function.Injective fun c => crcStep c b :=
  fun _ _ h => (BitVec.xor_left_inj _).mp (crcShifts_injective 8 h)

/-- Different bytes lead the same state to different ones. -/
theorem crcStep_injective_byte (c : Half) : Function.Injective (crcStep c) :=
  fun _ _ h => byte_at_high_injective ((BitVec.xor_right_inj _).mp (crcShifts_injective 8 h))

/-- Different seeds give different CRCs of the same span. -/
theorem crc16_injective_seed (bs : List Byte) : Function.Injective fun seed => crc16 bs seed := by
  induction bs with
  | nil => exact fun _ _ h => h
  | cons b bs ih => exact ih.comp (crcStep_injective_state b)

/-- Settles O18: the flipped byte leads to another state, and the rest of the span keeps the two apart. -/
theorem crcDetectsEverySingleBitFlip : Obligations.CrcDetectsEverySingleBitFlip := by
  intro before after b i seed hi hcrc
  rw [crc16_append, crc16_append, crc16_cons, crc16_cons] at hcrc
  have hbyte : b ^^^ 1#8 <<< i = b := crcStep_injective_byte _ (crc16_injective_seed after hcrc)
  have hmask : 1#8 <<< i = 0 := (BitVec.xor_right_inj b).mp (hbyte.trans BitVec.xor_zero.symm)
  have hbit : (1#8 <<< i).getLsbD i = true := by simp [hi]
  rw [hmask] at hbit
  simp at hbit

end Sys2Proof.Machine

/-! ## Frames: what an instruction leaves unchanged (R16, R24, R111)

What each operation writes, said once; then PBUF, the registers and the static configuration over an
instruction and a step. -/

namespace Sys2Proof.Machine

/-! ### PBUF (R24, R71) -/

/-- Scanning a byte writes the control registers and the running CRC alone. -/
theorem scanByte_eq_control (b : Byte) (s : State) :
    ∃ st seenAa cnt fcrc,
      scanByte b s = { s with st := st, seenAa := seenAa, cnt := cnt, fcrc := fcrc } := by
  unfold scanByte
  split
  · exact ⟨_, _, _, _, rfl⟩
  · exact ⟨_, _, _, _, rfl⟩

/-- The end of a header writes the control registers and the trace alone. -/
theorem headerComplete_eq_control (s : State) :
    ∃ st seenAa cnt output,
      headerComplete s = { s with st := st, seenAa := seenAa, cnt := cnt, output := output } := by
  obtain ⟨-, hend⟩ | ⟨-, -, hend⟩ | ⟨-, -, hend⟩ := headerComplete_cases s <;>
    exact ⟨_, _, _, _, hend s rfl rfl⟩

/-- Everything an instruction can do to PBUF: BYTE in READING_PAYLOAD stores at index `cnt`, which PBUF has,
and every other answer keeps it. -/
theorem exec_pbuf_cases {i : Instr} {s t : State} (hex : exec i s = .next t) :
    t.pbuf = s.pbuf ∨
    ∃ b, i = .byte b ∧ s.st = .readingPayload ∧ s.cnt.toNat < pbufSize s.cfg ∧
      t.pbuf = Memory.write s.pbuf s.cnt.toNat b := by
  cases exec_move hex with
  | @payloadByte b _ hst _ hindex | @payloadLast b _ hst _ hindex =>
    exact .inr ⟨b, rfl, hst, hindex, rfl⟩
  | @scan b =>
    obtain ⟨_, _, _, _, hscan⟩ := scanByte_eq_control b s
    exact .inl (by rw [hscan])
  | @headerLast b =>
    obtain ⟨_, _, _, _, hend⟩ := headerComplete_eq_control (placeHeader 8 b (feedFrameCrc b s))
    exact .inl (by rw [hend]; exact placeHeader_pbuf 8 b _)
  | headerByte => exact .inl (by simp)
  | ignored | scanNoData | checksumLow | valid | mismatch | shortRead | closeEof | closeCancel | genInit
  | genByte | illegal => exact .inl rfl

/-- The same, as PBUF is read. -/
theorem exec_pbufByte_cases {i : Instr} {s t : State} (hex : exec i s = .next t) :
    (∀ a, pbufByte t a = pbufByte s a) ∨
    ∃ b, i = .byte b ∧ s.st = .readingPayload ∧ pbufByte t s.cnt.toNat = b ∧
      ∀ a, a ≠ s.cnt.toNat → pbufByte t a = pbufByte s a := by
  obtain hkeep | ⟨b, hi, hst, -, hwrite⟩ := exec_pbuf_cases hex
  · exact .inl (pbufByte_congr hkeep)
  · have hread : ∀ a, pbufByte t a = pbufByte (writePbuf s.cnt.toNat b s) a := pbufByte_congr hwrite
    refine .inr ⟨b, hi, hst, ?_, fun a ha => ?_⟩
    · rw [hread, pbufByte_writePbuf_self]
    · rw [hread, pbufByte_writePbuf_of_ne b s ha]

/-- Settles O51: a step changes PBUF only by an event, and the event's word is that of the byte stored. -/
theorem pbufChangesOnlyAtTheCountInThePayload : Obligations.PbufChangesOnlyAtTheCountInThePayload := by
  intro s t hstep
  obtain ⟨-, rfl⟩ | ⟨w, rest, hin, hex⟩ | ⟨rest, -, rfl⟩ := step_cases hstep
  · exact .inl fun _ => rfl
  · obtain hkeep | ⟨b, hi, hst, hstored, hrest⟩ := exec_pbufByte_cases hex
    · exact .inl hkeep
    · have hw : w = 0x0000#16 ++ b := eq_encode_of_decode hi
      exact .inr ⟨hst, b, rest, hw ▸ hin, hstored, hrest⟩
  · exact .inl fun _ => rfl

/-! ### The static configuration (R111) -/

/-- Settles O7: neither an instruction nor a reset writes the configuration. -/
theorem maxLenIsStatic : Obligations.MaxLenIsStatic := by
  intro s t hstep
  obtain ⟨-, rfl⟩ | ⟨w, rest, -, hex⟩ | ⟨rest, -, rfl⟩ := step_cases hstep
  · rfl
  · exact (exec_input_cfg hex).2
  · rfl

/-! ### Events other than BYTE -/

/-- An instruction other than BYTE writes the control registers, `close_cause`, `gcrc` and the trace
alone. -/
theorem exec_eq_control_of_not_byte {i : Instr} {s t : State} (hi : ∀ b, i ≠ .byte b)
    (hex : exec i s = .next t) :
    ∃ st seenAa cnt closeCause gcrc output,
      t = { s with
        st := st, seenAa := seenAa, cnt := cnt, closeCause := closeCause, gcrc := gcrc,
        output := output } := by
  cases exec_move hex with
  | scan | headerByte | headerLast | payloadByte | payloadLast | checksumLow | valid | mismatch =>
    exact absurd rfl (hi _)
  | ignored | scanNoData | shortRead | closeEof | closeCancel | genInit | genByte | illegal =>
    exact ⟨_, _, _, _, _, _, rfl⟩

/-- Only EOF and CANCEL write `close_cause` (R21). -/
theorem exec_closeCause_of_ne {i : Instr} {s t : State} (hex : exec i s = .next t) (heof : i ≠ .eof)
    (hcancel : i ≠ .cancel) : t.closeCause = s.closeCause := by
  obtain ⟨hi, -⟩ | ⟨hi, -⟩ | ⟨-, hkept⟩ := exec_closeCause_cases hex
  · exact absurd hi heof
  · exact absurd hi hcancel
  · exact hkept

/-- Settles O49: such an event writes none of these registers; `close_cause` and `gcrc` each have their own
writers, and a generator event's meaning writes `gcrc` alone. -/
theorem eventsThatStoreNothingLeaveTheFrame : Obligations.EventsThatStoreNothingLeaveTheFrame := by
  intro s t i hi hex
  have hgen : ((∃ seed, i = .genInit seed) ∨ ∃ b, i = .genByte b) → t = { s with gcrc := t.gcrc } := by
    rintro (⟨seed, rfl⟩ | ⟨b, rfl⟩)
    · rw [exec_genInit] at hex; cases hex; rfl
    · rw [exec_genByte] at hex; cases hex; rfl
  have hcause : i ≠ .eof → i ≠ .cancel → t.closeCause = s.closeCause := exec_closeCause_of_ne hex
  have hgcrc : (∀ seed, i ≠ .genInit seed) → (∀ b, i ≠ .genByte b) → t.gcrc = s.gcrc :=
    fun hinit hbyte => (exec_reads_no_outside ⟨hinit, hbyte⟩ hex).1
  obtain ⟨_, _, _, _, _, _, rfl⟩ := exec_eq_control_of_not_byte hi hex
  exact ⟨rfl, rfl, rfl, rfl, rfl, rfl, rfl, rfl, fun _ => rfl, hcause, hgcrc, hgen⟩

/-! ### BYTE -/

/-- Outside READING_HEADER no byte is placed in a header register (R65). -/
theorem exec_byte_header_registers {s t : State} {b : Byte} (hex : exec (.byte b) s = .next t)
    (hst : s.st ≠ .readingHeader) :
    t.fType = s.fType ∧ t.fSeq = s.fSeq ∧ t.fLen = s.fLen ∧ t.fTs = s.fTs := by
  cases exec_move hex with
  | headerByte hheader | headerLast hheader => exact absurd hheader hst
  | scan =>
    obtain ⟨_, _, _, _, hscan⟩ := scanByte_eq_control b s
    rw [hscan]
    exact ⟨rfl, rfl, rfl, rfl⟩
  | ignored | payloadByte | payloadLast | checksumLow | valid | mismatch => exact ⟨rfl, rfl, rfl, rfl⟩

/-- Only the low checksum byte is kept in `crc_lo` (R73). -/
theorem exec_byte_crcLo {s t : State} {b : Byte} (hex : exec (.byte b) s = .next t)
    (hlow : ¬ (s.st = .readingCrc ∧ s.cnt = 0)) : t.crcLo = s.crcLo := by
  cases exec_move hex with
  | checksumLow hst hcnt => exact absurd ⟨hst, hcnt⟩ hlow
  | scan =>
    obtain ⟨_, _, _, _, hscan⟩ := scanByte_eq_control b s
    rw [hscan]
  | headerLast =>
    obtain ⟨_, _, _, _, hend⟩ := headerComplete_eq_control (placeHeader 8 b (feedFrameCrc b s))
    rw [hend]
    exact placeHeader_crcLo 8 b _
  | headerByte => simp
  | ignored | payloadByte | payloadLast | valid | mismatch => rfl

/-- The checksum bytes are not part of the body, and CLOSED takes no byte: neither feeds `fcrc` (R19). -/
theorem exec_byte_fcrc_of_crc_or_closed {s t : State} {b : Byte} (hex : exec (.byte b) s = .next t)
    (hst : s.st = .readingCrc ∨ s.st = .closed) : t.fcrc = s.fcrc := by
  cases exec_move hex with
  | ignored | checksumLow | valid | mismatch => rfl
  | scan h | headerByte h | headerLast h | payloadByte h | payloadLast h => simp [h] at hst

/-- A scanned byte that does not begin an attempt leaves `fcrc` (R58). -/
theorem exec_byte_fcrc_of_seeking {s t : State} {b : Byte} (hex : exec (.byte b) s = .next t)
    (hs : s.st = .seekingSync) (ht : t.st = .seekingSync) : t.fcrc = s.fcrc := by
  rw [move_exec (.scan hs)] at hex
  cases hex
  unfold scanByte at ht ⊢
  split at ht
  · cases ht
  · next hno => rw [if_neg hno]

/-- Settles O50: each register by what BYTE can do to it; PBUF is stored to in READING_PAYLOAD alone. -/
theorem byteLeavesTheRest : Obligations.ByteLeavesTheRest := by
  intro s t b hex
  obtain ⟨hin, hcfg⟩ := exec_input_cfg hex
  refine ⟨(exec_reads_no_outside ⟨by simp, by simp⟩ hex).1, exec_closeCause_of_ne hex nofun nofun, hcfg, hin,
    exec_byte_header_registers hex, exec_byte_crcLo hex, exec_byte_fcrc_of_crc_or_closed hex,
    exec_byte_fcrc_of_seeking hex, fun hst => ?_, fun hst => ?_⟩
  · obtain hkeep | ⟨-, -, hpayload, -⟩ := exec_pbufByte_cases hex
    · exact hkeep
    · exact absurd hpayload hst
  · obtain hkeep | ⟨-, -, -, -, hrest⟩ := exec_pbufByte_cases hex
    · exact fun a _ => hkeep a
    · exact hrest

end Sys2Proof.Machine

/-! ## Records and control (R17, R63, R90, R93)

What an instruction appends to the trace and where control goes with it; then the transitions between
control states. -/

namespace Sys2Proof.Machine

/-! ### The record of an instruction -/

/-- Where control came from and where it went when the instruction `i` emitted the record (R90, R93). -/
def RecordFixesControl (i : Instr) (s t : State) : Record → Prop
  | .frameValid _ | .checksumMismatch _ _ =>
    s.st = .readingCrc ∧ t.st = .seekingSync ∧ t.seenAa = false ∧ t.cnt = 0
  | .incompleteFrame _ _ => inFrame s = true ∧ t.st = .seekingSync ∧ t.seenAa = false ∧ t.cnt = 0
  | .oversizedFrame => s.st = .readingHeader ∧ t.st = .seekingSync ∧ t.seenAa = false ∧ t.cnt = 0
  | .noFrameAvailable => s.st = .seekingSync ∧ t.st = .seekingSync ∧ t.seenAa = false
  | .sourceClosed b =>
    b = inFrame s ∧ s.st ≠ .closed ∧ t.st = .closed ∧ t.closeCause = .eof ∧ t.seenAa = false ∧ t.cnt = 0
  | .cancelled b =>
    b = inFrame s ∧ s.st ≠ .closed ∧ t.st = .closed ∧ t.closeCause = .cancel ∧ t.seenAa = false ∧ t.cnt = 0
  | .illegalEvent w => i = .illegal w ∧ t = emit (.illegalEvent w) s

theorem inFrame_of_seekingSync {s : State} (hst : s.st = .seekingSync) : inFrame s = false := by
  simp only [inFrame, hst]

theorem inFrame_of_closed {s : State} (hst : s.st = .closed) : inFrame s = false := by
  simp only [inFrame, hst]

theorem inFrame_congr {s t : State} (hst : t.st = s.st) : inFrame t = inFrame s := by
  simp only [inFrame, hst]

/-- Everything an instruction can do to the trace: it emits nothing and ends no attempt, or it appends one
record, which fixes where control goes. -/
theorem exec_record_cases {i : Instr} {s t : State} (hex : exec i s = .next t) :
    (t.output = s.output ∧ (inFrame s = true → inFrame t = true)) ∨
    ∃ r, t.output = s.output ++ [r] ∧ RecordFixesControl i s t r := by
  cases exec_move hex with
  | ignored | genInit | genByte => exact .inl ⟨rfl, id⟩
  | scan hst => exact .inl ⟨by simp, by simp [inFrame_of_seekingSync hst]⟩
  | headerByte => exact .inl ⟨by simp, fun hs => (inFrame_congr (by simp)).trans hs⟩
  | @headerLast b _ hst _ =>
    obtain ⟨-, hend⟩ | ⟨-, -, hend⟩ | ⟨-, -, hend⟩ :=
      headerComplete_cases (placeHeader 8 b (feedFrameCrc b s)) <;> rw [hend _ rfl rfl]
    · exact .inr ⟨.oversizedFrame, by simp, hst, rfl, rfl, rfl⟩
    · exact .inl ⟨by simp, fun _ => rfl⟩
    · exact .inl ⟨by simp, fun _ => rfl⟩
  | payloadByte | checksumLow => exact .inl ⟨rfl, id⟩
  | payloadLast => exact .inl ⟨rfl, fun _ => rfl⟩
  | scanNoData hst => exact .inr ⟨_, rfl, hst, hst, rfl⟩
  | valid hst | mismatch hst => exact .inr ⟨_, rfl, hst, rfl, rfl, rfl⟩
  | shortRead hst =>
    refine .inr ⟨_, rfl, ?_, rfl, rfl, rfl⟩
    obtain ⟨hst, -⟩ | ⟨hst, -⟩ | ⟨hst, -⟩ := hst <;> simp only [inFrame, hst]
  | closeEof hopen | closeCancel hopen => exact .inr ⟨_, rfl, rfl, hopen, rfl, rfl, rfl, rfl⟩
  | illegal => exact .inr ⟨_, rfl, rfl, rfl⟩

/-- Settles O6: waiting and reset emit nothing, an instruction at most one record. -/
theorem stepEmitsAtMostOneRecord : Obligations.StepEmitsAtMostOneRecord := by
  intro s t hstep
  obtain ⟨-, rfl⟩ | ⟨w, rest, -, hex⟩ | ⟨rest, -, rfl⟩ := step_cases hstep
  · exact .inl rfl
  · obtain ⟨hsilent, -⟩ | ⟨r, hout, -⟩ := exec_record_cases hex
    · exact .inl hsilent
    · exact .inr ⟨r, hout⟩
  · exact .inl rfl

/-- Settles O47: only an event emits, and its record fixes where control goes; an ILLEGAL_EVENT's word is the
word presented. -/
theorem emittedRecordFixesTheControlState : Obligations.EmittedRecordFixesTheControlState := by
  intro s t r hstep hout
  obtain ⟨-, rfl⟩ | ⟨w, rest, hin, hex⟩ | ⟨rest, -, rfl⟩ := step_cases hstep
  · simp at hout
  · obtain ⟨hsilent, -⟩ | ⟨r', hout', hfixes⟩ := exec_record_cases hex
    · simp [hsilent] at hout
    · obtain rfl : r' = r := by simpa [hout'] using hout
      cases r' with
      | illegalEvent word =>
        obtain ⟨hi, rfl⟩ := hfixes
        have hw : w = word := eq_encode_of_decode hi
        exact ⟨rest, hw ▸ hin, rfl⟩
      | frameValid | incompleteFrame | checksumMismatch | oversizedFrame | noFrameAvailable | sourceClosed
      | cancelled => exact hfixes
  · simp at hout

/-- Settles O34: an event that emits nothing ends no attempt; of the records an event in a reading state can
emit, ILLEGAL_EVENT changes nothing else, and every other is an outcome that leaves the reading states. -/
theorem attemptEndsWithExactlyOneOutcome : Obligations.AttemptEndsWithExactlyOneOutcome := by
  intro s t w rest hin hframe hstep
  rw [step_event hin] at hstep
  obtain ⟨hsilent, hstays⟩ | ⟨r, hout, hfixes⟩ := exec_record_cases hstep
  · exact .inl ⟨hstays hframe, .inl hsilent⟩
  · cases r with
    | illegalEvent word =>
      obtain ⟨hi, rfl⟩ := hfixes
      have hw : w = word := eq_encode_of_decode hi
      exact .inl ⟨hframe, .inr (hw ▸ rfl)⟩
    | noFrameAvailable =>
      have hnot : inFrame s = false := inFrame_of_seekingSync hfixes.1
      exact absurd (hframe.symm.trans hnot) (by decide)
    | frameValid | incompleteFrame | checksumMismatch | oversizedFrame =>
      obtain ⟨-, hst, -⟩ := hfixes
      exact .inr ⟨inFrame_of_seekingSync hst, _, rfl, hout⟩
    | sourceClosed | cancelled =>
      obtain ⟨-, -, hst, -⟩ := hfixes
      exact .inr ⟨inFrame_of_closed hst, _, rfl, hout⟩

end Sys2Proof.Machine

/-! ## The invariant (R19, R24, R27)

The invariant in five parts, each kept by every instruction; then the same of steps and runs. -/

namespace Sys2Proof.Machine

/-! ### The bytes of the attempt -/

/-- The bytes of the body taken so far: those of the header are in its registers, those of the payload are
written, and `fcrc` is their CRC (R19, R27(d), (e)). -/
def BodyTaken (s : State) : Prop :=
  match s.st with
  | .seekingSync => True
  | .readingHeader => s.fcrc = crc16 ((storedHeader s).take s.cnt.toNat)
  | .readingPayload =>
    PayloadWritten s s.cnt.toNat ∧ s.fcrc = crc16 (storedHeader s ++ readPayload s s.cnt.toNat)
  | .readingCrc =>
    PayloadWritten s s.fLen.toNat ∧ s.fcrc = crc16 (storedHeader s ++ readPayload s s.fLen.toNat)
  | .closed => True

theorem bodyTaken_of_not_inFrame {s : State} (h : inFrame s = false) : BodyTaken s := by
  unfold inFrame at h
  unfold BodyTaken
  split at h <;> simp_all

theorem bodyTaken_iff_of_header {s : State} (hst : s.st = .readingHeader) :
    BodyTaken s ↔ s.fcrc = crc16 ((storedHeader s).take s.cnt.toNat) := by
  simp only [BodyTaken, hst]

theorem bodyTaken_iff_of_payload {s : State} (hst : s.st = .readingPayload) :
    BodyTaken s ↔
      PayloadWritten s s.cnt.toNat ∧ s.fcrc = crc16 (storedHeader s ++ readPayload s s.cnt.toNat) := by
  simp only [BodyTaken, hst]

theorem bodyTaken_iff_of_crc {s : State} (hst : s.st = .readingCrc) :
    BodyTaken s ↔
      PayloadWritten s s.fLen.toNat ∧ s.fcrc = crc16 (storedHeader s ++ readPayload s s.fLen.toNat) := by
  simp only [BodyTaken, hst]

/-- The invariant is these five parts. -/
theorem blockInv_iff (s : State) :
    BlockInv s ↔
      (s.seenAa = true → s.st = .seekingSync) ∧ CountInRange s ∧ BodyTaken s ∧
      (s.st = .closed ↔ s.closeCause ≠ .none) ∧
      (Memory.wf s.pbuf = true ∧ ∀ c ∈ s.pbuf, c.1 < pbufSize s.cfg) := by
  constructor
  · intro h
    refine ⟨h.seenOnlySeeking, h.countInRange, ?_, h.closedCause, h.pbufCanonical, h.pbufIndexes⟩
    unfold BodyTaken
    split
    · trivial
    · next hst => exact h.headerCrc hst
    · next hst => exact ⟨h.payloadWritten hst, h.payloadCrc hst⟩
    · next hst => exact ⟨h.crcWritten hst, h.bodyCrc hst⟩
    · trivial
  · rintro ⟨hseen, hcount, hbody, hclosed, hwf, hindexes⟩
    exact {
      seenOnlySeeking := hseen
      headerCount := fun hst => (countInRange_iff_of_header hst).mp hcount
      headerCrc := fun hst => (bodyTaken_iff_of_header hst).mp hbody
      payloadCount := fun hst => ((countInRange_iff_of_payload hst).mp hcount).1
      payloadFits := fun hst => ((countInRange_iff_of_payload hst).mp hcount).2
      payloadWritten := fun hst => ((bodyTaken_iff_of_payload hst).mp hbody).1
      payloadCrc := fun hst => ((bodyTaken_iff_of_payload hst).mp hbody).2
      crcCount := fun hst => ((countInRange_iff_of_crc hst).mp hcount).1
      crcFits := fun hst => ((countInRange_iff_of_crc hst).mp hcount).2
      crcWritten := fun hst => ((bodyTaken_iff_of_crc hst).mp hbody).1
      bodyCrc := fun hst => ((bodyTaken_iff_of_crc hst).mp hbody).2
      closedCause := hclosed
      pbufCanonical := hwf
      pbufIndexes := hindexes }

theorem BlockInv.bodyTaken {s : State} (h : BlockInv s) : BodyTaken s :=
  ((blockInv_iff s).mp h).2.2.1

/-- The invariant does not read `gcrc`, the trace or the inputs. -/
theorem BlockInv.withOutside {s : State} (h : BlockInv s) (g : Half) (o : List Record) (xs : List Input) :
    BlockInv (withOutside g o xs s) :=
  (blockInv_iff (Machine.withOutside g o xs s)).mpr ((blockInv_iff s).mp h)

theorem BlockInv.withInput {s : State} (h : BlockInv s) (xs : List Input) : BlockInv { s with input := xs } :=
  h.withOutside s.gcrc s.output xs

/-! ### What an instruction keeps -/

theorem payloadWritten_zero (s : State) : PayloadWritten s 0 :=
  fun i hi => absurd hi (Nat.not_lt_zero i)

/-- A complete header is the body so far, whichever state follows (R66 to R69). -/
theorem headerComplete_bodyTaken {s : State} (hcrc : s.fcrc = crc16 (storedHeader s)) :
    BodyTaken (headerComplete s) := by
  have hbody : s.fcrc = crc16 (storedHeader s ++ readPayload s 0) := by
    rw [readPayload_zero, List.append_nil, hcrc]
  obtain ⟨-, hend⟩ | ⟨-, hlen, hend⟩ | ⟨-, -, hend⟩ := headerComplete_cases s <;> rw [hend s rfl rfl]
  · exact bodyTaken_of_not_inFrame rfl
  · have hzero : (enterReading .readingCrc s).fLen.toNat = 0 := congrArg BitVec.toNat hlen
    rw [bodyTaken_iff_of_crc rfl, hzero]
    exact ⟨payloadWritten_zero _, hbody⟩
  · exact (bodyTaken_iff_of_payload rfl).mpr ⟨payloadWritten_zero _, hbody⟩

/-- The state with a payload byte stored and fed to `fcrc` has one payload byte more (R71). -/
theorem stored_payload_taken {s : State} (b : Byte) (hwritten : PayloadWritten s s.cnt.toNat)
    (hcrc : s.fcrc = crc16 (storedHeader s ++ readPayload s s.cnt.toNat)) :
    PayloadWritten (feedFrameCrc b (writePbuf s.cnt.toNat b s)) (s.cnt.toNat + 1) ∧
    crcStep s.fcrc b =
      crc16 (storedHeader s ++ readPayload (writePbuf s.cnt.toNat b s) (s.cnt.toNat + 1)) := by
  constructor
  · intro i hi
    rw [feedFrameCrc_pbuf, writePbuf_pbuf]
    by_cases hself : i = s.cnt.toNat
    · rw [hself, Memory.read?_write_self]; rfl
    · rw [Memory.read?_write_of_ne _ _ hself]
      exact hwritten i (by omega)
  · rw [readPayload_writePbuf, ← List.append_assoc, crc16_concat, hcrc]

/-- Every instruction keeps the bytes of the attempt. -/
theorem exec_keeps_bodyTaken {i : Instr} {s t : State} (h : BodyTaken s) (hex : exec i s = .next t) :
    BodyTaken t := by
  cases exec_move hex with
  | ignored | genInit | genByte | illegal => exact h
  | scanNoData hst => exact bodyTaken_of_not_inFrame (inFrame_of_seekingSync hst)
  | scan hst =>
    unfold scanByte
    split
    · exact (bodyTaken_iff_of_header rfl).mpr rfl
    · exact bodyTaken_of_not_inFrame (inFrame_of_seekingSync hst)
  | @headerByte b _ hst hk =>
    rw [bodyTaken_iff_of_header hst] at h
    have htake := storedHeader_take_placeHeader s.cnt.toNat b (feedFrameCrc b s) (Nat.le_of_lt hk)
    rw [bodyTaken_iff_of_header (by simp [hst]), countByte_cnt, placeHeader_cnt, feedFrameCrc_cnt,
      succ_toNat_of_lt (by decide) hk]
    rw [countByte_fcrc, placeHeader_fcrc, feedFrameCrc_fcrc, h, ← crc16_concat]
    exact congrArg crc16 htake.symm
  | @headerLast b _ hst hk =>
    rw [bodyTaken_iff_of_header hst, hk] at h
    have htake := storedHeader_take_placeHeader 8 b (feedFrameCrc b s) (Nat.le_refl 8)
    rw [List.take_of_length_le (by simp)] at htake
    apply headerComplete_bodyTaken
    rw [placeHeader_fcrc, feedFrameCrc_fcrc, h, ← crc16_concat, htake]
    rfl
  | @payloadByte b _ hst hk =>
    obtain ⟨hwritten, hcrc⟩ := (bodyTaken_iff_of_payload hst).mp h
    rw [bodyTaken_iff_of_payload (by simp [hst]), countByte_cnt, feedFrameCrc_cnt, writePbuf_cnt,
      succ_toNat_of_lt s.fLen.isLt (Nat.lt_of_succ_lt hk)]
    exact stored_payload_taken b hwritten hcrc
  | @payloadLast b _ hst hk =>
    obtain ⟨hwritten, hcrc⟩ := (bodyTaken_iff_of_payload hst).mp h
    rw [bodyTaken_iff_of_crc (by simp), enterReading_fLen, feedFrameCrc_fLen, writePbuf_fLen, ← hk]
    exact stored_payload_taken b hwritten hcrc
  | checksumLow hst => exact (bodyTaken_iff_of_crc (by simp [hst])).mpr ((bodyTaken_iff_of_crc hst).mp h)
  | valid | mismatch | shortRead | closeEof | closeCancel => exact bodyTaken_of_not_inFrame rfl

/-- Every instruction keeps `seen_aa` clear outside SEEKING_SYNC: what leaves that state clears it. -/
theorem exec_keeps_seenOnlySeeking {i : Instr} {s t : State} (h : s.seenAa = true → s.st = .seekingSync)
    (hex : exec i s = .next t) : t.seenAa = true → t.st = .seekingSync := by
  have hclear : ∀ {u : State}, s.st ≠ .seekingSync → u.seenAa = s.seenAa →
      (u.seenAa = true → u.st = .seekingSync) :=
    fun hst hkept hseen => absurd (h (hkept ▸ hseen)) hst
  cases exec_move hex with
  | ignored | genInit | genByte | illegal => exact h
  | scanNoData hst => exact fun _ => hst
  | scan hst =>
    unfold scanByte
    split
    · exact fun hseen => absurd hseen (by simp)
    · exact fun _ => hst
  | headerByte hst | payloadByte hst | payloadLast hst | checksumLow hst =>
    exact hclear (by simp [hst]) (by simp)
  | @headerLast b _ hst =>
    obtain ⟨-, hend⟩ | ⟨-, -, hend⟩ | ⟨-, -, hend⟩ :=
      headerComplete_cases (placeHeader 8 b (feedFrameCrc b s)) <;> rw [hend _ rfl rfl]
    · exact fun _ => rfl
    · exact hclear (by simp [hst]) (by simp)
    · exact hclear (by simp [hst]) (by simp)
  | valid | mismatch | shortRead | closeEof | closeCancel =>
    exact fun hseen => absurd hseen Bool.false_ne_true

/-- Every instruction keeps the canonical form and the index range of PBUF. -/
theorem exec_keeps_pbuf_wf {i : Instr} {s t : State}
    (h : Memory.wf s.pbuf = true ∧ ∀ c ∈ s.pbuf, c.1 < pbufSize s.cfg) (hex : exec i s = .next t) :
    Memory.wf t.pbuf = true ∧ ∀ c ∈ t.pbuf, c.1 < pbufSize t.cfg := by
  obtain ⟨hwf, hindexes⟩ := h
  rw [(exec_input_cfg hex).2]
  obtain hkeep | ⟨b, -, -, hindex, hwrite⟩ := exec_pbuf_cases hex
  · rw [hkeep]
    exact ⟨hwf, hindexes⟩
  · rw [hwrite]
    refine ⟨Memory.write_wf hwf _ b, fun c hc => ?_⟩
    obtain rfl | hold := Memory.mem_write hc
    · exact hindex
    · exact hindexes c hold

/-- Every instruction keeps CLOSED exactly with a close cause. -/
theorem exec_keeps_closedCause {i : Instr} {s t : State} (h : s.st = .closed ↔ s.closeCause ≠ .none)
    (hex : exec i s = .next t) : t.st = .closed ↔ t.closeCause ≠ .none := by
  obtain ⟨-, -, hst, hcause⟩ | ⟨-, -, hst, hcause⟩ | ⟨hst, hcause⟩ := exec_closeCause_cases hex
  · simp [hst, hcause]
  · simp [hst, hcause]
  · rw [hst, hcause, h]

theorem exec_keeps_blockInv {i : Instr} {s t : State} (h : BlockInv s) (hex : exec i s = .next t) :
    BlockInv t := by
  obtain ⟨hseen, hcount, hbody, hclosed, hpbuf⟩ := (blockInv_iff s).mp h
  exact (blockInv_iff t).mpr ⟨exec_keeps_seenOnlySeeking hseen hex, exec_keeps_countInRange hcount hex,
    exec_keeps_bodyTaken hbody hex, exec_keeps_closedCause hclosed hex, exec_keeps_pbuf_wf hpbuf hex⟩

/-! ### Reset, steps and runs -/

/-- A reset step leads to a state that meets the invariant: it leaves PBUF as it is. -/
theorem BlockInv.resetRegisters {s : State} (h : BlockInv s) : BlockInv (resetRegisters s) :=
  (blockInv_iff (Machine.resetRegisters s)).mpr
    ⟨fun _ => rfl, trivial, trivial, by simp, h.pbufCanonical, h.pbufIndexes⟩

/-- Settles O9: nothing is being read, and PBUF has no entry. -/
theorem invariantHoldsAtReset : Obligations.InvariantHoldsAtReset :=
  fun cfg => (blockInv_iff (State.resetWith cfg)).mpr ⟨fun _ => rfl, trivial, trivial, by simp, rfl, by simp⟩

/-- Settles O10: waiting keeps the state, an event runs an instruction, and reset reads nothing of the state
but PBUF. -/
theorem invariantIsKeptByEveryStep : Obligations.InvariantIsKeptByEveryStep := by
  intro s t hinv hstep
  obtain ⟨-, rfl⟩ | ⟨w, rest, -, hex⟩ | ⟨rest, -, rfl⟩ := step_cases hstep
  · exact hinv
  · exact exec_keeps_blockInv (hinv.withInput rest) hex
  · exact (hinv.withInput rest).resetRegisters

/-- Settles O11: with the counts in range every instruction has a rule, and waiting and reset have no
guard. -/
theorem noInputStopsTheBlock : Obligations.NoInputStopsTheBlock := by
  intro s hinv
  match hin : s.input with
  | [] => exact ⟨_, step_nil hin⟩
  | .event w :: rest =>
    rw [step_event hin]
    exact exec_progress (hinv.withInput rest).countInRange (decode w)
  | .reset :: rest => exact ⟨_, step_reset hin⟩
  | .resetWithEvent _ :: rest => exact ⟨_, step_resetWithEvent hin⟩

/-- From a state that meets the invariant every run completes in one that does. -/
theorem runSteps_of_blockInv (k : Nat) {s : State} (h : BlockInv s) :
    ∃ t, runSteps k s = .next t ∧ BlockInv t := by
  induction k generalizing s with
  | zero => exact ⟨s, rfl, h⟩
  | succ k ih =>
    obtain ⟨u, hu⟩ := noInputStopsTheBlock s h
    obtain ⟨t, hrun, ht⟩ := ih (invariantIsKeptByEveryStep s u h hu)
    exact ⟨t, (runSteps_succ_of_step hu).trans hrun, ht⟩

/-- Settles O12: the reset state meets the invariant, whatever is presented to it. -/
theorem everyRunFromResetCompletes : Obligations.EveryRunFromResetCompletes :=
  fun cfg inputs k => runSteps_of_blockInv k ((invariantHoldsAtReset cfg).withInput inputs)

/-! ### Outside the invariant -/

theorem exec_byte_of_header {s : State} (hst : s.st = .readingHeader) (b : Byte) :
    exec (.byte b) s = takeHeaderByte b s := by
  simp only [exec, execByte, hst]

theorem exec_byte_of_payload {s : State} (hst : s.st = .readingPayload) (b : Byte) :
    exec (.byte b) s = takePayloadByte b s := by
  simp only [exec, execByte, hst]

theorem exec_byte_of_crc {s : State} (hst : s.st = .readingCrc) (b : Byte) :
    exec (.byte b) s = takeChecksumByte b s := by
  simp only [exec, execByte, hst]

/-- Settles O8: in each case every guard of the state's rule fails but the one that stops. -/
theorem countOrIndexOutOfRangeStops : Obligations.CountOrIndexOutOfRangeStops := by
  refine fun s b => ⟨fun hst hcnt => ?_, fun hst hcnt => ?_, fun hst hcnt hsize => ?_, fun hst hcnt => ?_,
    fun hst hcnt hrx hsize => ?_⟩
  · rw [exec_byte_of_header hst, takeHeaderByte, if_neg (Nat.not_lt_of_gt hcnt), if_neg (Nat.ne_of_gt hcnt)]
  · rw [exec_byte_of_payload hst, takePayloadByte, if_pos hcnt]
  · rw [exec_byte_of_payload hst, takePayloadByte, if_neg (Nat.not_le_of_lt hcnt), if_pos hsize]
  · have h0 : s.cnt ≠ 0 := fun h => by simp [h] at hcnt
    have h1 : s.cnt ≠ 1 := fun h => by simp [h] at hcnt
    rw [exec_byte_of_crc hst, takeChecksumByte, if_neg h0, if_neg h1]
  · have h0 : s.cnt ≠ 0 := by rw [hcnt]; decide
    rw [exec_byte_of_crc hst, takeChecksumByte, if_neg h0, if_pos hcnt, validate, receivedChecksum, if_pos hrx,
      if_neg (Nat.not_le_of_lt hsize)]

end Sys2Proof.Machine

/-! ## Changes of the control state (R15 to R17) -/

namespace Sys2Proof.Machine

/-- The transitions between different control states that R17 lists. -/
def CtlTransfer (a c : Ctl) : Prop :=
  (a = .seekingSync ∧ c = .readingHeader) ∨
  (a = .readingHeader ∧ (c = .readingPayload ∨ c = .readingCrc ∨ c = .seekingSync)) ∨
  (a = .readingPayload ∧ (c = .readingCrc ∨ c = .seekingSync)) ∨
  (a = .readingCrc ∧ c = .seekingSync) ∨
  (a ≠ .closed ∧ c = .closed)

/-- An instruction keeps the control state, or makes a listed transition with `cnt` clear; `seen_aa` is then
clear too, or as a reading state had it. -/
theorem exec_st_cases {i : Instr} {s t : State} (hex : exec i s = .next t) :
    t.st = s.st ∨
    (CtlTransfer s.st t.st ∧ t.cnt = 0 ∧ (t.seenAa = false ∨ (t.seenAa = s.seenAa ∧ inFrame s = true))) := by
  cases exec_move hex with
  | ignored | scanNoData | payloadByte | checksumLow | genInit | genByte | illegal => exact .inl rfl
  | headerByte => exact .inl (by simp)
  | scan hst =>
    unfold scanByte
    split
    · exact .inr ⟨.inl ⟨hst, rfl⟩, rfl, .inl rfl⟩
    · exact .inl rfl
  | @headerLast b _ hst =>
    have hframe : inFrame s = true := by simp only [inFrame, hst]
    obtain ⟨-, hend⟩ | ⟨-, -, hend⟩ | ⟨-, -, hend⟩ :=
      headerComplete_cases (placeHeader 8 b (feedFrameCrc b s)) <;> rw [hend _ rfl rfl]
    · exact .inr ⟨.inr (.inl ⟨hst, .inr (.inr rfl)⟩), rfl, .inl rfl⟩
    · exact .inr ⟨.inr (.inl ⟨hst, .inr (.inl rfl)⟩), rfl, .inr ⟨by simp, hframe⟩⟩
    · exact .inr ⟨.inr (.inl ⟨hst, .inl rfl⟩), rfl, .inr ⟨by simp, hframe⟩⟩
  | payloadLast hst =>
    have hframe : inFrame s = true := by simp only [inFrame, hst]
    exact .inr ⟨.inr (.inr (.inl ⟨hst, .inl rfl⟩)), rfl, .inr ⟨by simp, hframe⟩⟩
  | valid hst | mismatch hst => exact .inr ⟨.inr (.inr (.inr (.inl ⟨hst, rfl⟩))), rfl, .inl rfl⟩
  | shortRead hst =>
    refine .inr ⟨?_, rfl, .inl rfl⟩
    obtain ⟨hst, -⟩ | ⟨hst, -⟩ | ⟨hst, -⟩ := hst
    · exact .inr (.inl ⟨hst, .inr (.inr rfl)⟩)
    · exact .inr (.inr (.inl ⟨hst, .inr rfl⟩))
    · exact .inr (.inr (.inr (.inl ⟨hst, rfl⟩)))
  | closeEof hopen | closeCancel hopen =>
    exact .inr ⟨.inr (.inr (.inr (.inr ⟨hopen, rfl⟩))), rfl, .inl rfl⟩

theorem BlockInv.seenAa_of_inFrame {s : State} (h : BlockInv s) (hframe : inFrame s = true) :
    s.seenAa = false := by
  rw [Bool.eq_false_iff]
  intro hseen
  simp [inFrame_of_seekingSync (h.seenOnlySeeking hseen)] at hframe

/-- Settles O26: an instruction that changes the control state clears `cnt`, and `seen_aa` unless it was
clear in a reading state; a reset clears both. -/
theorem changeOfControlStateClearsSeenAaAndCount : Obligations.ChangeOfControlStateClearsSeenAaAndCount := by
  intro s t hinv hstep hchange
  obtain ⟨-, rfl⟩ | ⟨w, rest, -, hex⟩ | ⟨rest, -, rfl⟩ := step_cases hstep
  · exact absurd rfl hchange
  · obtain hkept | ⟨-, hcnt, hclear | ⟨hseen, hframe⟩⟩ := exec_st_cases hex
    · exact absurd hkept hchange
    · exact ⟨hclear, hcnt⟩
    · exact ⟨hseen.trans ((hinv.withInput rest).seenAa_of_inFrame hframe), hcnt⟩
  · exact ⟨rfl, rfl⟩

end Sys2Proof.Machine

/-! ### A transition of each kind

States of one small attempt, each with all its bytes but the last of its stage. -/

namespace Sys2Proof.Machine

/-- Scanning, with the marker's first byte seen. -/
def markerState : State := { State.resetWith ⟨none⟩ with seenAa := true }

/-- Before the last byte of an all-zero header with this length. -/
def lastHeaderState (len : Half) : State :=
  { State.resetWith ⟨none⟩ with
    st := .readingHeader, cnt := 8, fLen := len, fcrc := crc16 ((headerBytes 0 0 len 0).take 8) }

/-- Before the only payload byte. -/
def lastPayloadState : State :=
  { State.resetWith ⟨none⟩ with st := .readingPayload, fLen := 1, fcrc := crc16 (headerBytes 0 0 1 0) }

/-- Before the checksum of a frame without payload. -/
def checksumState : State :=
  { State.resetWith ⟨none⟩ with st := .readingCrc, fcrc := crc16 (headerBytes 0 0 0 0) }

theorem blockInv_markerState : BlockInv markerState :=
  (blockInv_iff markerState).mpr ⟨fun _ => rfl, trivial, trivial, by decide, rfl, nofun⟩

theorem blockInv_lastHeaderState (len : Half) : BlockInv (lastHeaderState len) :=
  (blockInv_iff (lastHeaderState len)).mpr
    ⟨nofun, Nat.le_refl 8, (bodyTaken_iff_of_header rfl).mpr rfl, by simp [lastHeaderState], rfl, nofun⟩

theorem blockInv_lastPayloadState : BlockInv lastPayloadState :=
  (blockInv_iff lastPayloadState).mpr
    ⟨nofun, (countInRange_iff_of_payload rfl).mpr ⟨by decide, show (1#16).toNat ≤ 65535 by decide⟩,
      (bodyTaken_iff_of_payload rfl).mpr ⟨payloadWritten_zero _, by simp [lastPayloadState, storedHeader]⟩,
      by decide, rfl, nofun⟩

theorem blockInv_checksumState : BlockInv checksumState :=
  (blockInv_iff checksumState).mpr
    ⟨nofun, (countInRange_iff_of_crc rfl).mpr ⟨by decide, Nat.zero_le _⟩,
      (bodyTaken_iff_of_crc rfl).mpr ⟨payloadWritten_zero _, by simp [checksumState, storedHeader]⟩,
      by decide, rfl, nofun⟩

/-- A move out of a state that meets the invariant is a step when the instruction's word is presented
there. -/
theorem transfer_of_move {i : Instr} {s t : State} (hi : WellFormed i = true) (hinv : BlockInv s)
    (hin : s.input = []) (hmove : Move i s t) (hne : s.st ≠ t.st) :
    ∃ s' t' w rest, BlockInv s' ∧ s'.input = .event w :: rest ∧ step s' = .next t' ∧ s'.st = s.st ∧
      t'.st = t.st ∧ s.st ≠ t.st := by
  have hback : State.mk s.cfg s.st s.seenAa s.cnt s.fType s.fSeq s.fLen s.fTs s.fcrc s.crcLo s.closeCause
      s.gcrc s.pbuf [] s.output = s := by rw [← hin]
  refine ⟨_, t, encode i, [], hinv.withInput [.event (encode i)], rfl, ?_, rfl, rfl, hne⟩
  rw [stepRunsThePresentedEvent.2 _ i [] hi rfl, hback]
  exact move_exec hmove

/-- Settles O13: an instruction makes no other transition; for each listed one the samples have a move. -/
theorem controlTransfersAreExactlyThese : Obligations.ControlTransfersAreExactlyThese := by
  intro a c
  constructor
  · rintro ⟨s, t, w, rest, -, hin, hstep, rfl, rfl, hne⟩
    rw [step_event hin] at hstep
    obtain hkept | ⟨htransfer, -⟩ := exec_st_cases hstep
    · exact absurd hkept.symm hne
    · exact htransfer
  · have hheader := blockInv_lastHeaderState
    have hpayload := blockInv_lastPayloadState
    have hcrc := blockInv_checksumState
    rintro (⟨rfl, rfl⟩ | ⟨rfl, rfl | rfl | rfl⟩ | ⟨rfl, rfl | rfl⟩ | ⟨rfl, rfl⟩ | ⟨hopen, rfl⟩)
    · exact transfer_of_move (i := .byte 0x55) rfl blockInv_markerState rfl (.scan rfl) nofun
    · exact transfer_of_move (i := .byte 0) rfl (hheader 1) rfl (.headerLast rfl rfl) nofun
    · exact transfer_of_move (i := .byte 0) rfl (hheader 0) rfl (.headerLast rfl rfl) nofun
    · exact transfer_of_move rfl (hheader 0) rfl (.shortRead (.inl ⟨rfl, rfl⟩)) nofun
    · exact transfer_of_move (i := .byte 0) rfl hpayload rfl (.payloadLast rfl rfl (by decide)) nofun
    · exact transfer_of_move rfl hpayload rfl (.shortRead (.inr (.inl ⟨rfl, rfl⟩))) nofun
    · exact transfer_of_move rfl hcrc rfl (.shortRead (.inr (.inr ⟨rfl, rfl⟩))) nofun
    · cases a with
      | seekingSync => exact transfer_of_move rfl blockInv_markerState rfl (.closeEof nofun) nofun
      | readingHeader => exact transfer_of_move rfl (hheader 0) rfl (.closeEof nofun) nofun
      | readingPayload => exact transfer_of_move rfl hpayload rfl (.closeEof nofun) nofun
      | readingCrc => exact transfer_of_move rfl hcrc rfl (.closeEof nofun) nofun
      | closed => exact absurd rfl hopen

end Sys2Proof.Machine

/-! ## The two paths (20_memory.md section 6)

A stream beside its frame-path events alone, and beside its generator events alone. -/

namespace Sys2Proof.Machine

/-- A word is a frame-path event, a generator event or illegal. -/
theorem word_cases (w : EventWord) :
    (isFramePath w = true ∧ isGenerator w = false) ∨ (isFramePath w = false ∧ isGenerator w = true) ∨
    (isFramePath w = false ∧ isGenerator w = false ∧ decode w = .illegal w) := by
  have hword := encode_decode w
  unfold isFramePath isGenerator
  cases hd : decode w with
  | byte | noData | eof | cancel => exact .inl ⟨rfl, rfl⟩
  | genInit | genByte => exact .inr (.inl ⟨rfl, rfl⟩)
  | illegal v =>
    rw [hd] at hword
    exact .inr (.inr ⟨rfl, rfl, congrArg Instr.illegal hword⟩)

/-- A generator event's meaning writes `gcrc` alone, by a function of `gcrc`. -/
theorem exec_generator {w : EventWord} (hw : isGenerator w = true) :
    ∃ f : Half → Half, ∀ s, exec (decode w) s = .next { s with gcrc := f s.gcrc } := by
  unfold isGenerator at hw
  cases hd : decode w with
  | genInit seed => exact ⟨fun _ => seed, exec_genInit seed⟩
  | genByte b => exact ⟨fun g => crcStep g b, exec_genByte b⟩
  | byte | noData | eof | cancel | illegal => simp [hd] at hw

/-- An event that is no generator event leaves `gcrc`. -/
theorem exec_gcrc_of_not_generator {w : EventWord} {s t : State} (hw : isGenerator w = false)
    (hex : exec (decode w) s = .next t) : t.gcrc = s.gcrc := by
  refine (exec_reads_no_outside ⟨fun seed hd => ?_, fun b hd => ?_⟩ hex).1 <;> simp [isGenerator, hd] at hw

/-- A run over a presented word that completes ran that word first. -/
theorem exists_exec_of_runSteps_presenting {w : EventWord} {ws : List EventWord} {rest : List Input}
    {s t : State} {k : Nat} (h : runSteps (k + 1) (presenting (w :: ws) rest s) = .next t) :
    ∃ u, exec (decode w) (presenting ws rest s) = .next u ∧ runSteps k (presenting ws rest u) = .next t := by
  match hex : exec (decode w) (presenting ws rest s) with
  | .next u => exact ⟨u, rfl, by rw [← exec_presenting hex, ← runSteps_presenting hex, h]⟩
  | .fault r => simp [runSteps, step_presenting, hex] at h
  | .refused r => simp [runSteps, step_presenting, hex] at h

/-- A stream's generator events alone, from any state with the same `gcrc`, end with the `gcrc` of the whole
stream and change nothing else. -/
theorem runSteps_generator_only {ws : List EventWord} {rest : List Input} {s t : State}
    (hrun : runSteps ws.length (presenting ws rest s) = .next t) {v : State} (hv : v.gcrc = s.gcrc) :
    runSteps (ws.filter isGenerator).length (presenting (ws.filter isGenerator) rest v) =
      .next { v with gcrc := t.gcrc, input := rest } := by
  induction ws generalizing s v with
  | nil => cases hrun; simp [presenting, ← hv]
  | cons w ws ih =>
    obtain ⟨u, hex, hrest⟩ := exists_exec_of_runSteps_presenting hrun
    cases hw : isGenerator w
    · have hkept : v.gcrc = u.gcrc := hv.trans (exec_gcrc_of_not_generator hw hex).symm
      rw [List.filter_cons_of_neg (by simp [hw])]
      exact ih hrest hkept
    · obtain ⟨f, hf⟩ := exec_generator hw
      rw [hf] at hex
      cases hex
      rw [List.filter_cons_of_pos hw]
      exact (runSteps_presenting (hf _)).trans
        (ih (v := { v with gcrc := f v.gcrc }) hrest (congrArg f hv))

/-- The records but for ILLEGAL_EVENT. -/
def legalRecords (o : List Record) : List Record := o.filter fun r => !isIllegalRecord r

theorem legalRecords_append (o p : List Record) : legalRecords (o ++ p) = legalRecords o ++ legalRecords p :=
  List.filter_append ..

theorem legalRecords_illegalEvent (w : EventWord) : legalRecords [.illegalEvent w] = [] := rfl

/-- A stream and its frame-path events alone, from two states that agree but for `gcrc` and ILLEGAL_EVENT
records, end in two such states. -/
theorem runSteps_framePath_only (ws : List EventWord) (rest : List Input) {s : State} (hs : CountInRange s)
    (g : Half) {o : List Record} (ho : legalRecords o = legalRecords s.output) :
    ∃ t f, runSteps ws.length (presenting ws rest (withOutside g o [] s)) = .next t ∧
      runSteps (ws.filter isFramePath).length (presenting (ws.filter isFramePath) rest s) = .next f ∧
      t = { f with gcrc := t.gcrc, output := t.output } ∧ legalRecords t.output = legalRecords f.output := by
  induction ws generalizing s g o with
  | nil => exact ⟨_, _, rfl, rfl, rfl, ho⟩
  | cons w ws ih =>
    obtain ⟨hframe, -⟩ | ⟨hframe, hgen⟩ | ⟨hframe, -, hillegal⟩ := word_cases w
    · obtain ⟨u, hu⟩ := exec_progress hs (decode w)
      obtain ⟨hgcrc, r, hout, hany⟩ := exec_reads_no_outside (decode_ne_generator_of_framePath hframe) hu
      have hrecords : legalRecords (o ++ r) = legalRecords u.output := by
        rw [hout, legalRecords_append, legalRecords_append, ho]
      obtain ⟨t, f, ht, hf, hrel⟩ := ih (exec_keeps_countInRange hs hu) g hrecords
      refine ⟨t, f, (runSteps_presenting (hany g o _)).trans ht, ?_, hrel⟩
      have hu' : exec (decode w) (presenting (ws.filter isFramePath) rest s) =
          .next (presenting (ws.filter isFramePath) rest u) := by
        refine (hany s.gcrc s.output _).trans ?_
        rw [← hgcrc, ← hout]
        rfl
      rw [List.filter_cons_of_pos hframe]
      exact (runSteps_presenting hu').trans hf
    · obtain ⟨f, hgen⟩ := exec_generator hgen
      rw [List.filter_cons_of_neg (by simp [hframe])]
      obtain ⟨t, u, ht, hrest⟩ := ih hs (f g) ho
      exact ⟨t, u, (runSteps_presenting (hgen _)).trans ht, hrest⟩
    · have hrecords : legalRecords (o ++ [.illegalEvent w]) = legalRecords s.output := by
        rw [legalRecords_append, legalRecords_illegalEvent, List.append_nil, ho]
      rw [List.filter_cons_of_neg (by simp [hframe])]
      obtain ⟨t, f, ht, hrest⟩ := ih hs g hrecords
      exact ⟨t, f, (runSteps_presenting (hillegal ▸ move_exec .illegal)).trans ht, hrest⟩

/-- Settles O22: by induction over the stream, an event of each kind keeping the states of the three runs
alike in what they share. -/
theorem framePathAndGeneratorDoNotInterfere : Obligations.FramePathAndGeneratorDoNotInterfere := by
  intro s ws rest hinv
  obtain ⟨t, f, ht, hf, hshared, hrecords⟩ :=
    runSteps_framePath_only ws rest hinv.countInRange s.gcrc (o := s.output) rfl
  have hg := runSteps_generator_only ht (v := s) rfl
  exact ⟨t, f, _, ht, hf, hg, hshared, hrecords, rfl⟩

end Sys2Proof.Machine

/-! ## The decoder unit: outcomes and payload (R69 to R78) -/

namespace Sys2Proof.Machine

/-! ### A frame above the ceiling (R69) -/

/-- The state after the last header byte `b` of a frame above the ceiling. -/
def oversized (b : Byte) (s : State) : State :=
  raiseStatus .oversizedFrame .seekingSync
    { s with fTs := b ++ s.fTs.extractLsb' 0 24, fcrc := crcStep s.fcrc b }

theorem exec_oversized {s : State} (b : Byte) (hst : s.st = .readingHeader) (hcnt : s.cnt = 8)
    (hover : exceedsCeiling s.cfg s.fLen = true) : exec (.byte b) s = .next (oversized b s) := by
  rw [move_exec (.headerLast hst (congrArg BitVec.toNat hcnt))]
  obtain ⟨-, hend⟩ | ⟨hceil, -⟩ | ⟨hceil, -⟩ := headerComplete_cases s
  · rw [hend (placeHeader 8 b (feedFrameCrc b s)) rfl rfl, oversized, ← (setByte_quad s.fTs b).2.2.2]
    rfl
  · simp [hceil] at hover
  · simp [hceil] at hover

/-- Settles O29: the outcome leaves the block scanning with `seen_aa` clear, where AA sets it and 55 begins
the next attempt. -/
theorem oversizedFrameIsNotSkipped : Obligations.OversizedFrameIsNotSkipped := by
  intro s b n rest hst hcnt hn hlen
  have hover : exceedsCeiling s.cfg s.fLen = true := (exceedsCeiling_iff _ _).mpr ⟨n, hn, hlen⟩
  refine ⟨exec_oversized b hst hcnt hover, ?_⟩
  have hfirst : exec (decode (encode (.byte b))) (presenting (asmBytes [0xAA, 0x55]) rest s) =
      .next (presenting (asmBytes [0xAA, 0x55]) rest (oversized b s)) := by
    rw [decode_encode rfl]
    exact exec_oversized b hst hcnt hover
  calc
    _ = runSteps 2 (presenting (asmBytes [0xAA, 0x55]) rest (oversized b s)) := runSteps_presenting hfirst
    _ = runSteps 1 (presenting (asmBytes [0x55]) rest { oversized b s with seenAa := true }) :=
      runSteps_presenting_byte_of_ne rfl (by decide) _ rest 1
    _ = runSteps 0 (presenting [] rest (startAttempt (oversized b s))) :=
      runSteps_presenting_scanByte (s := { oversized b s with seenAa := true }) rfl 0x55 [] rest 0

/-! ### Payload bytes (R71) -/

/-- Settles O30: the byte is stored and fed to `fcrc`; after the last one the checksum follows, else `cnt`
goes up by one. -/
theorem payloadByteIsStored : Obligations.PayloadByteIsStored := by
  intro s b hst hcnt hfits
  have hindex : s.cnt.toNat < pbufSize s.cfg := Nat.lt_of_lt_of_le hcnt hfits
  obtain hmore | hlast := Nat.lt_or_eq_of_le hcnt
  · refine ⟨_, move_exec (.payloadByte hst hmore hindex), ?_, pbufByte_writePbuf_self _ b s,
      fun i hi => pbufByte_writePbuf_of_ne b s hi⟩
    rw [if_neg (Nat.ne_of_lt hmore), if_neg (Nat.ne_of_lt hmore), ← hst]
    rfl
  · refine ⟨_, move_exec (.payloadLast hst hlast hindex), ?_, pbufByte_writePbuf_self _ b s,
      fun i hi => pbufByte_writePbuf_of_ne b s hi⟩
    rw [if_pos hlast, if_pos hlast]
    rfl

/-! ### Validation (R74 to R76) -/

/-- The received checksum as a number: its low byte was kept in `crc_lo`. -/
theorem receivedChecksum_toNat (b : Byte) (s : State) :
    (receivedChecksum b s).toNat = b.toNat * 256 + s.crcLo.toNat := by
  rw [receivedChecksum, BitVec.toNat_append, ← Nat.shiftLeft_add_eq_or_of_lt s.crcLo.isLt, Nat.shiftLeft_eq]

theorem receivedChecksum_eq_iff (b : Byte) (s : State) :
    receivedChecksum b s = s.fcrc ↔ b.toNat * 256 + s.crcLo.toNat = s.fcrc.toNat := by
  rw [← BitVec.toNat_inj, receivedChecksum_toNat]

theorem readPayload_getElem? (s : State) {n i : Nat} (hi : i < n) :
    (readPayload s n)[i]? = some (pbufByte s i) := by
  simp [readPayload, hi]

/-- Settles O32: these are the two moves of the high checksum byte, the comparison read on numbers. -/
theorem highChecksumByteDecides : Obligations.HighChecksumByteDecides := by
  intro s b hst hcnt
  simp only [ne_eq, ← receivedChecksum_eq_iff]
  refine ⟨fun hrx hfits => ?_, fun hrx => move_exec (.mismatch hst hcnt hrx), readPayload_length _ _,
    fun i hi => readPayload_getElem? s hi⟩
  rw [move_exec (.valid hst hcnt hrx hfits), hrx]
  rfl

/-! ### Short reads (R70, R72, R78) -/

/-- Settles O33: NODATA is the short read of the state's phase, and `got` is `cnt`, whose range is the
invariant's. -/
theorem noDataInAFrameIsAShortRead : Obligations.NoDataInAFrameIsAShortRead := by
  intro s
  refine ⟨fun hst => ⟨move_exec (.shortRead (.inl ⟨hst, rfl⟩)), rfl, fun hinv => hinv.headerCount hst⟩,
    fun hst => ⟨move_exec (.shortRead (.inr (.inl ⟨hst, rfl⟩))), rfl, fun hinv => ?_⟩,
    fun hst => ⟨move_exec (.shortRead (.inr (.inr ⟨hst, rfl⟩))), rfl, fun hinv => ?_⟩⟩
  · have hcnt := hinv.payloadCount hst
    omega
  · obtain h0 | h1 := Nat.le_one_iff_eq_zero_or_eq_one.mp (hinv.crcCount hst)
    · exact .inl (BitVec.eq_of_toNat_eq h0)
    · exact .inr (BitVec.eq_of_toNat_eq h1)

/-! ### Soundness of FRAME_VALID (R47, R75, R79) -/

theorem elementalField_eq_none {s : State} (h : ¬ (s.fType = 0x20 ∧ s.fLen = 4)) : elementalField s = none :=
  if_neg h

theorem pbufSize_eq_of_maxLen {cfg : Config} {n : Half} (h : cfg.maxLen = some n) : pbufSize cfg = n.toNat := by
  simp only [pbufSize, h]

/-- Settles O35: the record carries the registers of the state before it, whose `fcrc` is, by the invariant,
the CRC of the body, and whose length fits PBUF. -/
theorem everyValidRecordIsSound : Obligations.EveryValidRecordIsSound := by
  intro s t f hinv hstep hout
  obtain ⟨b, rest, -, hst, -, -, hfits, rfl, -⟩ := step_emits_frameValid hstep hout
  refine ⟨readPayload_length _ _, hinv.bodyCrc hst, fun n hn => pbufSize_eq_of_maxLen hn ▸ hfits,
    elementalField_eq_none, fun ⟨htype, hlen⟩ => ?_⟩
  have hlen' : s.fLen.toNat = 4 := congrArg BitVec.toNat hlen
  refine ⟨pbufByte s 0, pbufByte s 1, pbufByte s 2, pbufByte s 3, ?_, elementalField_of_busFrame htype hlen⟩
  show readPayload s s.fLen.toNat = _
  rw [hlen']
  rfl

end Sys2Proof.Machine

/-! ## The binary64 form (43_codec.md R86) -/

namespace Sys2Proof.Machine

/-- Dividing by an odd number no tie occurs: the rounded quotient is off by less than half a unit. -/
theorem divNearestEven_error (n : Nat) {d : Nat} (hodd : d % 2 = 1) :
    2 * ((divNearestEven n d : Int) * d - n).natAbs < d := by
  have hlt : n % d < d := Nat.mod_lt n (by omega)
  have hn : (n : Int) = d * (n / d : Nat) + (n % d : Nat) := by exact_mod_cast (Nat.div_add_mod n d).symm
  simp only [divNearestEven]
  split
  · have herr : ((n / d : Nat) : Int) * d - n = -(n % d : Nat) := by rw [hn]; ring
    rw [herr]
    omega
  · split
    · have herr : ((n / d + 1 : Nat) : Int) * d - n = d - (n % d : Nat) := by rw [hn]; push_cast; ring
      rw [herr]
      omega
    · omega

/-- The exponent puts the scaled quotient of a magnitude into the binade of a 53-bit significand, with room
for rounding. -/
theorem normExponent_binade {m : Nat} (hpos : 1 ≤ m) (hle : m ≤ 128) :
    normExponent m ≤ 7 ∧ 127 * 2 ^ 52 ≤ m * 2 ^ (59 - normExponent m) ∧
      m * 2 ^ (59 - normExponent m) ≤ 126 * 2 ^ 53 := by
  unfold normExponent
  split
  · omega
  · next hsmall =>
    have hlo : 2 ^ Nat.log2 m ≤ m := Nat.log2_self_le (by omega)
    have hhi : m < 2 ^ (Nat.log2 m + 1) := Nat.lt_log2_self
    have he : Nat.log2 m < 7 := Nat.log2_lt (by omega) |>.mpr (by omega)
    generalize Nat.log2 m = e at hlo hhi he ⊢
    interval_cases e <;> omega

/-- The significand of the form, its leading bit included. -/
def normSignificand (m : Nat) : Nat := divNearestEven (m * 2 ^ (59 - normExponent m)) normDivisor

theorem normSignificand_error (m : Nat) :
    2 * ((normSignificand m : Int) * 127 - m * 2 ^ (59 - normExponent m)).natAbs < 127 := by
  exact_mod_cast divNearestEven_error (m * 2 ^ (59 - normExponent m)) (d := normDivisor) rfl

/-- The rounded significand has exactly 53 bits. -/
theorem normSignificand_range {m : Nat} (hpos : 1 ≤ m) (hle : m ≤ 128) :
    2 ^ 52 ≤ normSignificand m ∧ normSignificand m < 2 ^ 53 := by
  obtain ⟨-, hlo, hhi⟩ := normExponent_binade hpos hle
  have herr := normSignificand_error m
  have hcast : (m : Int) * 2 ^ (59 - normExponent m) = (m * 2 ^ (59 - normExponent m) : Nat) := by
    push_cast; rfl
  rw [hcast] at herr
  omega

theorem norm64_eq {raw : Int} (hraw : raw ≠ 0) :
    norm64 raw = BitVec.ofNat 64 ((if raw < 0 then 1 else 0) * 2 ^ 63 +
      (1016 + normExponent raw.natAbs) * 2 ^ 52 + (normSignificand raw.natAbs - 2 ^ 52)) := by
  have hsign : (if raw < 0 then 1 else 0) * 2 ^ 63 = if raw < 0 then 2 ^ 63 else 0 := by
    rw [ite_mul, Nat.one_mul, Nat.zero_mul]
  rw [norm64, if_neg hraw, hsign, normSignificand]

/-- Settles O42: the significand is the nearest to the quotient scaled by the exponent, and it lies in the
binade of that exponent. -/
theorem binary64FormIsTheNearest : Obligations.Binary64FormIsTheNearest := by
  refine ⟨rfl, fun p hraw => ?_⟩
  obtain ⟨hmin, hmax⟩ := lane_raw_range p
  have hpos : 1 ≤ (lane p).raw.natAbs := by omega
  have hle : (lane p).raw.natAbs ≤ 128 := by omega
  obtain ⟨hexp, -⟩ := normExponent_binade hpos hle
  obtain ⟨hleading, hsize⟩ := normSignificand_range hpos hle
  have hshift : 1075 - (1016 + normExponent (lane p).raw.natAbs) = 59 - normExponent (lane p).raw.natAbs := by
    omega
  refine ⟨_, _, _, norm64_eq hraw, by omega, by omega, by omega, rfl, ?_⟩
  rw [Nat.add_sub_cancel' hleading, hshift]
  exact normSignificand_error _

end Sys2Proof.Machine

/-! ## The state after reset (R13, R107) -/

namespace Sys2Proof.Machine

/-- Settles O52: each register by its reset value. -/
theorem resetStateHoldsTheResetValues : Obligations.ResetStateHoldsTheResetValues := by
  refine ⟨fun cfg => ?_, rfl⟩
  simp [ctlCode, causeCode]

end Sys2Proof.Machine

/-! ## Whole frames on the stream (R44, R58, R64 to R77)

A frame byte by byte: where each byte leads, whatever is presented after it, and what the attempt then
holds. -/

namespace Sys2Proof.Machine

/-! ### Runs over bytes -/

/-- The bytes `bs` presented to `s` lead to `u`, whatever is presented after them. -/
def Reaches (bs : List Byte) (s u : State) : Prop :=
  ∀ rest, runSteps bs.length (presenting (asmBytes bs) rest s) = .next (presenting [] rest u)

theorem Reaches.refl (s : State) : Reaches [] s s := fun _ => rfl

theorem asmBytes_append (as bs : List Byte) : asmBytes (as ++ bs) = asmBytes as ++ asmBytes bs :=
  List.map_append

theorem Reaches.append {as bs : List Byte} {s u v : State} (h₁ : Reaches as s u) (h₂ : Reaches bs u v) :
    Reaches (as ++ bs) s v := by
  intro rest
  rw [asmBytes_append, presenting_append, List.length_append, runSteps_add (h₁ _)]
  exact h₂ rest

/-- What BYTE answers does not depend on what is presented after it. -/
theorem reaches_byte {b : Byte} {s u : State} (hex : exec (.byte b) s = .next u) : Reaches [b] s u := by
  intro rest
  obtain ⟨hgcrc, r, hout, hany⟩ := exec_reads_no_outside ⟨by simp, by simp⟩ hex
  have hword : exec (decode (encode (.byte b))) (presenting [] rest s) = .next (presenting [] rest u) := by
    rw [decode_encode rfl]
    refine (hany s.gcrc s.output rest).trans ?_
    rw [← hgcrc, ← hout]
    rfl
  exact runSteps_presenting hword

/-- The marker begins an attempt from any state in SEEKING_SYNC (R58). -/
theorem reaches_marker {s : State} (hst : s.st = .seekingSync) :
    Reaches [markerFirst, markerSecond] s (startAttempt s) := by
  intro rest
  calc
    _ = runSteps 1 (presenting (asmBytes [markerSecond]) rest { s with seenAa := true }) :=
      runSteps_presenting_byte_of_ne hst (by decide) _ rest 1
    _ = runSteps 0 (presenting [] rest (startAttempt s)) :=
      runSteps_presenting_scanByte (s := { s with seenAa := true }) hst markerSecond [] rest 0

/-! ### The header -/

/-- What the attempt begun in `s` holds once the body bytes `body` are taken: their CRC, and all that the
frame path does not touch before its outcome. -/
structure Attempt (s : State) (body : List Byte) (u : State) : Prop where
  fcrc : u.fcrc = crc16 body
  seenAa : u.seenAa = false
  cfg : u.cfg = s.cfg
  gcrc : u.gcrc = s.gcrc
  closeCause : u.closeCause = s.closeCause
  output : u.output = s.output

/-- One more body byte enters the CRC. -/
theorem Attempt.concat {s u v : State} {body : List Byte} {b : Byte} (h : Attempt s body u)
    (hfcrc : v.fcrc = crcStep u.fcrc b) (hseen : v.seenAa = u.seenAa) (hcfg : v.cfg = u.cfg)
    (hgcrc : v.gcrc = u.gcrc) (hcause : v.closeCause = u.closeCause) (hout : v.output = u.output) :
    Attempt s (body ++ [b]) v where
  fcrc := by rw [hfcrc, h.fcrc, crc16_concat]
  seenAa := hseen.trans h.seenAa
  cfg := hcfg.trans h.cfg
  gcrc := hgcrc.trans h.gcrc
  closeCause := hcause.trans h.closeCause
  output := hout.trans h.output

/-- The header bytes `hs` are taken and the header goes on. -/
structure HeaderTaken (s : State) (hs : List Byte) (u : State) : Prop extends Attempt s hs u where
  st : u.st = .readingHeader
  cnt : u.cnt.toNat = hs.length
  stored : (storedHeader u).take hs.length = hs

theorem headerTaken_startAttempt (s : State) : HeaderTaken s [] (startAttempt s) :=
  ⟨⟨rfl, rfl, rfl, rfl, rfl, rfl⟩, rfl, rfl, rfl⟩

/-- A header byte before the last. -/
theorem HeaderTaken.concat {s u : State} {hs : List Byte} (h : HeaderTaken s hs u) (hlt : hs.length < 8)
    (b : Byte) : ∃ v, exec (.byte b) u = .next v ∧ HeaderTaken s (hs ++ [b]) v := by
  have hcnt : u.cnt.toNat < 8 := h.cnt ▸ hlt
  have htake := storedHeader_take_placeHeader hs.length b (feedFrameCrc b u) (Nat.le_of_lt hlt)
  have hattempt := h.toAttempt.concat (v := countByte (placeHeader u.cnt.toNat b (feedFrameCrc b u))) (b := b)
    (by simp) (by simp) (by simp) (by simp) (by simp) (by simp)
  refine ⟨_, move_exec (.headerByte h.st hcnt), hattempt, by simp [h.st], ?_, ?_⟩
  · rw [countByte_cnt, placeHeader_cnt, feedFrameCrc_cnt, succ_toNat_of_lt (by decide) hcnt, h.cnt,
      List.length_append, List.length_singleton]
  · rw [h.cnt, List.length_append, List.length_singleton]
    exact htake.trans (congrArg (· ++ [b]) h.stored)

theorem HeaderTaken.run {s u : State} {hs : List Byte} (h : HeaderTaken s hs u) (bs : List Byte)
    (hlen : hs.length + bs.length ≤ 8) : ∃ v, Reaches bs u v ∧ HeaderTaken s (hs ++ bs) v := by
  induction bs generalizing hs u with
  | nil => exact ⟨u, .refl u, by rwa [List.append_nil]⟩
  | cons b bs ih =>
    rw [List.length_cons] at hlen
    obtain ⟨v, hex, hv⟩ := h.concat (by omega) b
    obtain ⟨x, hrun, hx⟩ := ih hv (by simp; omega)
    exact ⟨x, (reaches_byte hex).append hrun, by rwa [List.append_assoc] at hx⟩

/-! ### The payload -/

/-- Where the block stands with `n` bytes of a payload of length `len` taken. -/
def AtPayloadByte (len : Half) (n : Nat) (u : State) : Prop :=
  (n < len.toNat ∧ u.st = .readingPayload ∧ u.cnt.toNat = n) ∨
  (n = len.toNat ∧ u.st = .readingCrc ∧ u.cnt = 0)

/-- The registers and PBUF hold a header with these fields and the payload bytes `ps`. -/
structure BodyHeld (s : State) (t : Byte) (q len : Half) (ts : Quad) (ps : List Byte) (u : State) : Prop
    extends Attempt s (bodyBytes t q len ts ps) u where
  fType : u.fType = t
  fSeq : u.fSeq = q
  fLen : u.fLen = len
  fTs : u.fTs = ts
  stored : readPayload u ps.length = ps

/-- The header with these fields is taken, and the payload bytes `ps`; the block stands after them. -/
structure PayloadTaken (s : State) (t : Byte) (q len : Half) (ts : Quad) (ps : List Byte) (u : State) : Prop
    extends BodyHeld s t q len ts ps u where
  place : AtPayloadByte len ps.length u

/-- The bytes of a header determine its fields. -/
theorem fields_of_storedHeader {u : State} {t : Byte} {q len : Half} {ts : Quad}
    (h : storedHeader u = headerBytes t q len ts) :
    u.fType = t ∧ u.fSeq = q ∧ u.fLen = len ∧ u.fTs = ts := by
  simp only [storedHeader, headerBytes, leBytes16, leBytes32, List.cons_append, List.nil_append,
    List.cons.injEq] at h
  obtain ⟨htype, hq0, hq1, hl0, hl1, ht0, ht1, ht2, ht3, -⟩ := h
  exact ⟨htype, half_ext hq0 hq1, half_ext hl0 hl1, quad_ext ht0 ht1 ht2 ht3⟩

/-- The last header byte of a frame within the ceiling leads to its payload, or to its checksum when it has
none. -/
theorem HeaderTaken.last {s u : State} {t : Byte} {q len : Half} {ts : Quad} {hs : List Byte} {b : Byte}
    (h : HeaderTaken s hs u) (hlen : hs.length = 8) (hheader : hs ++ [b] = headerBytes t q len ts)
    (hceil : exceedsCeiling s.cfg len = false) :
    ∃ v, exec (.byte b) u = .next v ∧ PayloadTaken s t q len ts [] v := by
  have hattempt : Attempt s (hs ++ [b]) (placeHeader 8 b (feedFrameCrc b u)) :=
    h.toAttempt.concat (by simp) (by simp) (by simp) (by simp) (by simp) (by simp)
  have hbody : hs ++ [b] = bodyBytes t q len ts [] := hheader.trans (List.append_nil _).symm
  have hstored : storedHeader (placeHeader 8 b (feedFrameCrc b u)) = headerBytes t q len ts := by
    have htake := storedHeader_take_placeHeader 8 b (feedFrameCrc b u) (Nat.le_refl 8)
    rw [List.take_of_length_le (by simp)] at htake
    rw [htake, ← hheader]
    exact congrArg (· ++ [b]) (hlen ▸ h.stored)
  obtain ⟨htype, hseq, hflen, hts⟩ := fields_of_storedHeader hstored
  rw [hbody] at hattempt
  have hmove := move_exec (.headerLast (b := b) h.st (h.cnt.trans hlen))
  obtain ⟨hover, -⟩ | ⟨-, hzero, hend⟩ | ⟨-, hpos, hend⟩ :=
    headerComplete_cases (placeHeader 8 b (feedFrameCrc b u))
  · rw [hflen, hattempt.cfg, hceil] at hover
    cases hover
  · rw [hend _ rfl rfl] at hmove
    have hlen0 : 0 = len.toNat := by rw [← hflen, hzero]; rfl
    exact ⟨_, hmove, ⟨{ hattempt with }, htype, hseq, hflen, hts, rfl⟩, .inr ⟨hlen0, rfl, rfl⟩⟩
  · rw [hend _ rfl rfl] at hmove
    have hlenpos : 0 < len.toNat :=
      Nat.pos_of_ne_zero fun h0 => hpos (hflen.trans (BitVec.eq_of_toNat_eq h0))
    exact ⟨_, hmove, ⟨{ hattempt with }, htype, hseq, hflen, hts, rfl⟩, .inl ⟨hlenpos, rfl, rfl⟩⟩

/-- A payload byte is stored after those before it; the last one leads to the checksum (R71). -/
theorem PayloadTaken.concat {s u : State} {t : Byte} {q len : Half} {ts : Quad} {ps : List Byte}
    (h : PayloadTaken s t q len ts ps u) (hlt : ps.length < len.toNat) (hfits : len.toNat ≤ pbufSize s.cfg)
    (b : Byte) : ∃ v, exec (.byte b) u = .next v ∧ PayloadTaken s t q len ts (ps ++ [b]) v := by
  obtain ⟨-, hst, hcnt⟩ | ⟨hend, -⟩ := h.place
  case inr => omega
  have hlen : (ps ++ [b]).length = u.cnt.toNat + 1 := by rw [hcnt, List.length_append, List.length_singleton]
  have hindex : u.cnt.toNat < pbufSize u.cfg := by rw [h.cfg, hcnt]; omega
  have hattempt : Attempt s (bodyBytes t q len ts (ps ++ [b])) (feedFrameCrc b (writePbuf u.cnt.toNat b u)) := by
    rw [bodyBytes, ← List.append_assoc]
    exact h.toAttempt.concat rfl rfl rfl rfl rfl rfl
  have hstored : readPayload (writePbuf u.cnt.toNat b u) (ps ++ [b]).length = ps ++ [b] := by
    rw [hlen, readPayload_writePbuf, hcnt, h.stored]
  have hcntlt : u.cnt.toNat < u.fLen.toNat := by rw [h.fLen, hcnt]; exact hlt
  obtain hmore | hlast := Nat.lt_or_eq_of_le (Nat.succ_le_of_lt hcntlt)
  · refine ⟨_, move_exec (.payloadByte hst hmore hindex),
      ⟨{ hattempt with }, h.fType, h.fSeq, h.fLen, h.fTs, hstored⟩, .inl ⟨?_, hst, ?_⟩⟩
    · rwa [hlen, ← h.fLen]
    · rw [hlen]
      exact succ_toNat_of_lt u.fLen.isLt (Nat.lt_of_succ_lt hmore)
  · refine ⟨_, move_exec (.payloadLast hst hlast hindex),
      ⟨{ hattempt with }, h.fType, h.fSeq, h.fLen, h.fTs, hstored⟩, .inr ⟨?_, rfl, rfl⟩⟩
    rwa [hlen, ← h.fLen]

theorem PayloadTaken.run {s u : State} {t : Byte} {q len : Half} {ts : Quad} {ps : List Byte}
    (h : PayloadTaken s t q len ts ps u) (bs : List Byte) (hlen : ps.length + bs.length ≤ len.toNat)
    (hfits : len.toNat ≤ pbufSize s.cfg) :
    ∃ v, Reaches bs u v ∧ PayloadTaken s t q len ts (ps ++ bs) v := by
  induction bs generalizing ps u with
  | nil => exact ⟨u, .refl u, by rwa [List.append_nil]⟩
  | cons b bs ih =>
    rw [List.length_cons] at hlen
    obtain ⟨v, hex, hv⟩ := h.concat (by omega) hfits b
    obtain ⟨x, hrun, hx⟩ := ih hv (by simp; omega)
    exact ⟨x, (reaches_byte hex).append hrun, by rwa [List.append_assoc] at hx⟩

/-- The marker and the body of a frame within the ceiling lead to a state that holds the body. -/
theorem exists_reaches_body {s : State} (hst : s.st = .seekingSync) (t : Byte) (q : Half) {len : Half}
    (ts : Quad) {p : List Byte} (hlen : p.length = len.toNat) (hceil : exceedsCeiling s.cfg len = false) :
    ∃ u, Reaches (markerFirst :: markerSecond :: bodyBytes t q len ts p) s u ∧
      PayloadTaken s t q len ts p u := by
  have hfits : len.toNat ≤ pbufSize s.cfg :=
    lengthFits_of_not_exceedsCeiling (s := { s with fLen := len }) hceil
  obtain ⟨u, hu, hheader⟩ :=
    (headerTaken_startAttempt s).run ((headerBytes t q len ts).take 8) (Nat.le_refl 8)
  obtain ⟨v, hv, hzero⟩ := hheader.last (b := byteOf ts 3) rfl rfl hceil
  obtain ⟨x, hx, hbody⟩ := hzero.run p (Nat.le_of_eq ((Nat.zero_add _).trans hlen)) hfits
  exact ⟨x, (reaches_marker hst).append ((hu.append (reaches_byte hv)).append hx), hbody⟩

/-! ### The checksum -/

/-- The `elemental` field of a frame sent with this type and payload. -/
def sentElemental (t : Byte) (p : List Byte) : Option ElementalReading :=
  match p with
  | [p0, p1, p2, p3] => if t = 0x20 then some (elementalDecode p0 p1 p2 p3) else none
  | _ => none

theorem elementalField_eq_sentElemental {u : State} {p : List Byte} (hlen : p.length = u.fLen.toNat)
    (hp : readPayload u p.length = p) : elementalField u = sentElemental u.fType p := by
  by_cases h4 : u.fLen = 4
  · have hbytes : p = [pbufByte u 0, pbufByte u 1, pbufByte u 2, pbufByte u 3] := by
      rw [← hp, hlen, h4]; rfl
    rw [hbytes]
    simp [elementalField, sentElemental, h4]
  · have hne : p.length ≠ 4 := fun h => h4 (BitVec.eq_of_toNat_eq (hlen.symm.trans h))
    rw [elementalField_eq_none fun hbus => h4 hbus.2]
    unfold sentElemental
    split
    · exact absurd rfl hne
    · rfl

/-- The frame with these fields, with the checksum of its body. -/
def sentFrame (t : Byte) (q len : Half) (ts : Quad) (p : List Byte) : Frame where
  type := t
  sequence := q
  length := len
  timestamp := ts
  payload := p
  checksum := crc16 (bodyBytes t q len ts p)
  elemental := sentElemental t p

/-- The outcome of a frame sent with checksum `c`: both values when it is not the CRC of the body. -/
def sentOutcome (t : Byte) (q len : Half) (ts : Quad) (p : List Byte) (c : Half) : Record :=
  if c = crc16 (bodyBytes t q len ts p) then .frameValid (sentFrame t q len ts p)
  else .checksumMismatch (crc16 (bodyBytes t q len ts p)) c

/-- The block scans again after the attempt begun in `s`, which emitted `r` alone. -/
structure Ended (s : State) (r : Record) (u : State) : Prop where
  st : u.st = .seekingSync
  seenAa : u.seenAa = false
  cnt : u.cnt = 0
  cfg : u.cfg = s.cfg
  gcrc : u.gcrc = s.gcrc
  closeCause : u.closeCause = s.closeCause
  output : u.output = s.output ++ [r]

/-- Whatever the status, it ends the attempt. -/
theorem Attempt.ended {s u : State} {body : List Byte} (h : Attempt s body u) (r : Record) :
    Ended s r (raiseStatus r .seekingSync u) :=
  ⟨rfl, rfl, rfl, h.cfg, h.gcrc, h.closeCause, congrArg (· ++ [r]) h.output⟩

/-- The frame of the record is the frame sent. -/
theorem BodyHeld.validFrame {s u : State} {t : Byte} {q len : Half} {ts : Quad} {p : List Byte}
    (h : BodyHeld s t q len ts p u) (hlen : p.length = len.toNat) :
    validFrame (crc16 (bodyBytes t q len ts p)) u = sentFrame t q len ts p := by
  have hpayload : readPayload u len.toNat = p := hlen ▸ h.stored
  have helemental : elementalField u = sentElemental u.fType p :=
    elementalField_eq_sentElemental (by rw [hlen, h.fLen]) h.stored
  simp only [Machine.validFrame, sentFrame, helemental, h.fType, h.fSeq, h.fLen, h.fTs, hpayload]

/-- The high checksum byte emits one of two records and ends the attempt (R74). -/
theorem exec_highChecksum {u : State} (b : Byte) (hst : u.st = .readingCrc) (hcnt : u.cnt = 1)
    (hfits : LengthFits u) :
    exec (.byte b) u = .next (raiseStatus
      (if receivedChecksum b u = u.fcrc then .frameValid (validFrame u.fcrc u)
        else .checksumMismatch u.fcrc (receivedChecksum b u)) .seekingSync u) := by
  split
  · next hrx => rw [move_exec (.valid hst hcnt hrx hfits), hrx]
  · next hrx => exact move_exec (.mismatch hst hcnt hrx)

/-- The state `u` with the low byte of the checksum `c` kept (R73). -/
def lowChecksumKept (c : Half) (u : State) : State := { u with crcLo := byteOf c 0, cnt := 1 }

theorem receivedChecksum_lowChecksumKept (c : Half) (u : State) :
    receivedChecksum (byteOf c 1) (lowChecksumKept c u) = c :=
  (half_eq_of_bytes c).symm

theorem BodyHeld.lowChecksumKept {s u : State} {t : Byte} {q len : Half} {ts : Quad} {p : List Byte}
    (h : BodyHeld s t q len ts p u) (c : Half) : BodyHeld s t q len ts p (lowChecksumKept c u) :=
  ⟨{ h.toAttempt with }, h.fType, h.fSeq, h.fLen, h.fTs, h.stored⟩

/-- The checksum bytes decide a frame whose body is taken (R73 to R76). -/
theorem PayloadTaken.checksum {s u : State} {t : Byte} {q len : Half} {ts : Quad} {p : List Byte}
    (h : PayloadTaken s t q len ts p u) (hlen : p.length = len.toNat) (hfits : len.toNat ≤ pbufSize s.cfg)
    (c : Half) : ∃ v, Reaches (leBytes16 c) u v ∧ Ended s (sentOutcome t q len ts p c) v := by
  obtain ⟨hmore, -⟩ | ⟨-, hst, hcnt⟩ := h.place
  case inl => omega
  have hheld := h.toBodyHeld.lowChecksumKept c
  have hfits' : LengthFits (Machine.lowChecksumKept c u) := by
    rw [LengthFits, hheld.fLen, hheld.cfg]; exact hfits
  have hlow : Reaches [byteOf c 0] u (Machine.lowChecksumKept c u) :=
    reaches_byte (move_exec (.checksumLow hst hcnt))
  have hhigh := exec_highChecksum (byteOf c 1) (u := Machine.lowChecksumKept c u) hst rfl hfits'
  rw [receivedChecksum_lowChecksumKept, hheld.fcrc, hheld.validFrame hlen] at hhigh
  exact ⟨_, hlow.append (reaches_byte hhigh), hheld.ended _⟩

/-! ### Frames -/

/-- The payload is within the ceiling, as a number. -/
def WithinCeiling (cfg : Config) (p : List Byte) : Prop :=
  p.length ≤ 65535 ∧ ∀ n, cfg.maxLen = some n → p.length ≤ n.toNat

theorem WithinCeiling.length_eq {cfg : Config} {p : List Byte} (h : WithinCeiling cfg p) :
    p.length = (BitVec.ofNat 16 p.length).toNat :=
  (Nat.mod_eq_of_lt (Nat.lt_succ_of_le h.1)).symm

theorem WithinCeiling.not_exceedsCeiling {cfg : Config} {p : List Byte} (h : WithinCeiling cfg p) :
    exceedsCeiling cfg (BitVec.ofNat 16 p.length) = false := by
  rw [Bool.eq_false_iff, Ne, exceedsCeiling_iff, ← h.length_eq]
  rintro ⟨n, hn, hlt⟩
  exact absurd (h.2 n hn) (Nat.not_le_of_lt hlt)

/-- A frame within the ceiling, with any checksum, ends in its outcome. -/
theorem exists_reaches_rawFrame {s : State} (hst : s.st = .seekingSync) (t : Byte) (q : Half) (ts : Quad)
    {p : List Byte} (hp : WithinCeiling s.cfg p) (c : Half) :
    ∃ u, Reaches (rawFrameBytes t q (BitVec.ofNat 16 p.length) ts p c) s u ∧
      Ended s (sentOutcome t q (BitVec.ofNat 16 p.length) ts p c) u := by
  have hceil := hp.not_exceedsCeiling
  have hfits := lengthFits_of_not_exceedsCeiling (s := { s with fLen := BitVec.ofNat 16 p.length }) hceil
  obtain ⟨u, hu, hbody⟩ := exists_reaches_body hst t q ts hp.length_eq hceil
  obtain ⟨v, hv, hended⟩ := hbody.checksum hp.length_eq hfits c
  exact ⟨v, hu.append hv, hended⟩

/-- A well-formed frame within the ceiling is decoded as sent. -/
theorem exists_reaches_frame {s : State} (hst : s.st = .seekingSync) (t : Byte) (q : Half) (ts : Quad)
    {p : List Byte} (hp : WithinCeiling s.cfg p) :
    ∃ u, Reaches (frameBytes t q ts p) s u ∧
      Ended s (.frameValid (sentFrame t q (BitVec.ofNat 16 p.length) ts p)) u := by
  have h := exists_reaches_rawFrame hst t q ts hp (crc16 (bodyBytes t q (BitVec.ofNat 16 p.length) ts p))
  rwa [sentOutcome, if_pos rfl] at h

theorem rawFrameBytes_length (t : Byte) (q len : Half) (ts : Quad) (p : List Byte) (c : Half) :
    (rawFrameBytes t q len ts p c).length = 13 + p.length := by
  simp [rawFrameBytes, bodyBytes, leBytes16]
  omega

theorem frameBytes_length (t : Byte) (q : Half) (ts : Quad) (p : List Byte) :
    (frameBytes t q ts p).length = 13 + p.length :=
  rawFrameBytes_length ..

/-- Settles O36: the marker begins an attempt, the header and payload bytes are taken one by one, and the
checksum is the CRC of them all. -/
theorem everyFrameDecodesAsSent : Obligations.EveryFrameDecodesAsSent := by
  intro s t q ts p rest hst hlen hceil
  obtain ⟨u, hu, hended⟩ := exists_reaches_frame hst t q ts ⟨hlen, hceil⟩
  have hrun := hu rest
  rw [frameBytes_length] at hrun
  refine ⟨_, hrun, hended.st, hended.seenAa, hended.cnt, rfl, hended.gcrc, hended.closeCause, ?_⟩
  exact hended.output

/-- Settles O37: the first frame ends in its mismatch, scanning, and the second is decoded from there. -/
theorem frameAfterAChecksumMismatchIsRecovered : Obligations.FrameAfterAChecksumMismatchIsRecovered := by
  intro s t₁ t₂ q₁ q₂ ts₁ ts₂ p₁ p₂ c rest hst hlen₁ hceil₁ hlen₂ hceil₂ hc
  obtain ⟨u, hu, hended₁⟩ := exists_reaches_rawFrame hst t₁ q₁ ts₁ ⟨hlen₁, hceil₁⟩ c
  have hp₂ : WithinCeiling u.cfg p₂ := by rw [hended₁.cfg]; exact ⟨hlen₂, hceil₂⟩
  obtain ⟨v, hv, hended₂⟩ := exists_reaches_frame hended₁.st t₂ q₂ ts₂ hp₂
  have hrun := hu.append hv rest
  rw [List.length_append, rawFrameBytes_length, frameBytes_length, asmBytes_append] at hrun
  refine ⟨_, sentFrame t₂ q₂ (BitVec.ofNat 16 p₂.length) ts₂ p₂, hrun, ?_, rfl, rfl, rfl, rfl,
    hended₂.st, rfl⟩
  refine hended₂.output.trans ?_
  rw [hended₁.output, sentOutcome, if_neg hc, List.append_assoc]
  rfl

/-- Settles O38: the noise leaves the block scanning, and from there the frame is decoded, whatever
`seen_aa` the noise left. -/
theorem frameAfterNoiseIsRecovered : Obligations.FrameAfterNoiseIsRecovered := by
  intro s noise t q ts p rest hst hseen hfree hlen hceil
  have hnoise : Reaches noise s { s with seenAa := decide (noise.getLast? = some 0xAA) } :=
    runSteps_asmBytes_of_markerFree hst hseen hfree
  obtain ⟨u, hu, hended⟩ :=
    exists_reaches_frame (s := { s with seenAa := decide (noise.getLast? = some 0xAA) }) hst t q ts
      ⟨hlen, hceil⟩
  have hrun := hnoise.append hu rest
  rw [List.length_append, frameBytes_length, asmBytes_append] at hrun
  exact ⟨_, _, hrun, hended.output, rfl, rfl, rfl, rfl, hended.st, rfl⟩

end Sys2Proof.Machine
